-- ==== Sys2Proof/Word.lean ====
section
/-! DEFINITION. The bit widths of spec/00_scope.md R4 and R5: a word is 32 bits, a byte 8 bits, a block 64 bytes.
Only type names stand here; every operation on them stands in a file under Machine/. -/

namespace Sys2Proof

/-- R5: "A *word* is 32 bits". -/
abbrev Word := BitVec 32

/-- R5: "a *byte* is 8 bits". -/
abbrev Byte := BitVec 8

/-- R21: the byte counter, "exactly 64 bits". -/
abbrev Count := BitVec 64

/-- R33: "an 8-bit byte offset `addr`" in the register window. -/
abbrev Addr := BitVec 8

/-- R70: the transaction word `T`, 41 bits. -/
abbrev TWord := BitVec 41

/-- R71: the response word `P`, 34 bits. -/
abbrev PWord := BitVec 34

/-- Eight 32-bit words: `H`, `DIGEST`, `MSOUT`, `MSIN` (R20, R25, R27, R30). -/
abbrev Words8 := Vector Word 8

/-- R5: "a *block* is 64 bytes". -/
abbrev Block := Vector Byte 64

end Sys2Proof
end

