-- ==== Sys2Proof/Syntax.lean ====
section
/-! DEFINITION. The instructions (one constructor for each of the 18 rows of spec/opcode_table.json), the transaction and
response formats of spec/30_encoding.md R70 and R71, the registers of spec/10_state.md R33 and the host's events. -/

namespace Sys2Proof

/-- The 18 instructions of R74. An instruction is one host transaction. Its operands are those of R72, each of exactly the
width R72 gives it, so every term is well formed. -/
inductive Instr where
  /-- `NOP` (R91) -/
  | nop
  /-- `INIT` (R92) -/
  | init
  /-- `LOAD` (R148) -/
  | load
  /-- `EXPORT` (R141) -/
  | exportMs
  /-- `FINAL` (R132) -/
  | final
  /-- `MSCLR` (R149) -/
  | msclr
  /-- `PUTB imm8` (R121) -/
  | putb (b : Byte)
  /-- `PUTW imm32` (R122) -/
  | putw (w : Word)
  /-- `WMSIN i, imm32` (R145) -/
  | wmsin (i : Fin 8) (w : Word)
  /-- `WMSCNTL imm32` (R146) -/
  | wmscntl (w : Word)
  /-- `WMSCNTH imm32` (R147) -/
  | wmscnth (w : Word)
  /-- `RSTATUS` (R93) -/
  | rstatus
  /-- `RCNTL` (R94) -/
  | rcntl
  /-- `RCNTH` (R95) -/
  | rcnth
  /-- `RDIGEST i` (R133) -/
  | rdigest (i : Fin 8)
  /-- `RMSOUT i` (R142) -/
  | rmsout (i : Fin 8)
  /-- `RMSOCNTL` (R143) -/
  | rmsocntl
  /-- `RMSOCNTH` (R144) -/
  | rmsocnth
deriving DecidableEq, Repr

/-- The mnemonics of R74, in the table's order. -/
inductive Mnemonic where
  | nop | init | load | exportMs | final | msclr
  | putb | putw | wmsin | wmscntl | wmscnth
  | rstatus | rcntl | rcnth | rdigest | rmsout | rmsocntl | rmsocnth
deriving DecidableEq, Repr

/-- A host transaction as the triple of R70: "A model may as well carry the triple `(we, addr, wdata)`". -/
structure Transaction where
  /-- `T[40]`: true for a write. -/
  we : Bool
  /-- `T[39:32]`: the byte offset in the register window. -/
  addr : Addr
  /-- `T[31:0]`: write data, ignored by the engine when `we = 0`. -/
  wdata : Word
deriving DecidableEq, Repr

/-- The response codes of R160. -/
inductive RespCode where
  | okay | invalidState | stateBoundary | illegal
deriving DecidableEq, Repr

/-- A response (R71): the pair `(resp, rdata)`. -/
structure Response where
  resp : RespCode
  rdata : Word
deriving DecidableEq, Repr

/-- What the host can do between two steps: issue a transaction (R12) or cause the reset event (R180). -/
inductive HostEvent where
  | transaction (t : Transaction)
  | reset
deriving DecidableEq, Repr

/-- The registers of the window (R33). -/
inductive Reg where
  | ctrl | status | countLo | countHi | din8 | din32
  | digest (i : Fin 8)
  | msout (i : Fin 8)
  | msoutCntLo | msoutCntHi
  | msin (i : Fin 8)
  | msinCntLo | msinCntHi
deriving DecidableEq, Repr

/-- The one legal direction of a register (R33). -/
inductive Dir where
  | readOnly | writeOnly
deriving DecidableEq, Repr

/-- Why a transaction word is no instruction: the five classes (a) to (e) of R76. -/
inductive IllegalWord where
  /-- (a) `addr[1:0] ≠ 0` -/
  | misaligned
  /-- (b) a write to a read-only offset -/
  | writeToReadOnly
  /-- (c) a read of a write-only offset -/
  | readOfWriteOnly
  /-- (d) any access to a reserved offset -/
  | reservedOffset
  /-- (e) a write to `CTRL` of a code above 5 -/
  | reservedCommand
deriving DecidableEq, Repr

/-- What decoding a transaction word gives: an instruction, or the name of the reason why it is none. -/
inductive Decoded where
  | instr (i : Instr)
  | illegal (why : IllegalWord)
deriving DecidableEq, Repr

end Sys2Proof
end

