-- ==== Sys2Proof/WellFormed.lean ====
section
/-! DEFINITION. Which transaction words are well formed, that is, instructions. Written from the exhaustive list of
spec/30_encoding.md R76, offset by offset, and so independent of the decoder, which follows the procedure of R75.
A term of `Instr` needs no check: its operand types admit exactly the values R72 admits (`i` from 0 to 7, an 8-bit or a
32-bit immediate). -/

namespace Sys2Proof

/-- The offset lies between `lo` and `hi`, both included. -/
def Addr.between (lo hi a : Addr) : Bool := lo.toNat ≤ a.toNat && a.toNat ≤ hi.toNat

/-- R59: "Every access must be to an offset that is a multiple of 4". -/
def Transaction.aligned (t : Transaction) : Bool := t.addr.toNat % 4 = 0

/-- R76 (b): the read-only offsets. -/
def Addr.isReadOnly (a : Addr) : Bool :=
  a = 0x04 || a = 0x08 || a = 0x0C || Addr.between 0x20 0x3C a || Addr.between 0x40 0x5C a || a = 0x60 || a = 0x64

/-- R76 (c): the write-only offsets. -/
def Addr.isWriteOnly (a : Addr) : Bool :=
  a = 0x00 || a = 0x10 || a = 0x14 || Addr.between 0x80 0x9C a || a = 0xA0 || a = 0xA4

/-- R76 (d): the reserved offsets. -/
def Addr.isReserved (a : Addr) : Bool :=
  a = 0x18 || a = 0x1C || Addr.between 0x68 0x7C a || Addr.between 0xA8 0xFC a

/-- R76 (e): a write to `CTRL` with `wdata` from 6 on. -/
def Transaction.reservedCommand (t : Transaction) : Bool := t.we && t.addr = 0x00 && 6 ≤ t.wdata.toNat

/-- The word falls in none of the five classes of R76. -/
def Transaction.wellFormed (t : Transaction) : Bool :=
  t.aligned && !(t.we && t.addr.isReadOnly) && !(!t.we && t.addr.isWriteOnly) && !t.addr.isReserved &&
    !t.reservedCommand

/-- R73: the word with zeros in the bits the engine ignores: `wdata` of a read, `wdata[31:8]` of a write to `DIN8`. -/
def Transaction.canonical (t : Transaction) : Transaction :=
  if !t.we then { t with wdata := 0 }
  else if t.addr = 0x10 then { t with wdata := t.wdata &&& 0xFF }
  else t

/-- The word is the one the assembler of R79 writes (R73). -/
def Transaction.isCanonical (t : Transaction) : Bool := t.canonical = t

end Sys2Proof
end

