-- ==== Sys2Proof/Decode.lean ====
section
/-! DEFINITION. Transaction and response words (spec/30_encoding.md R70, R71), the register map (spec/10_state.md R33), the
decoder (R75), the encoder (R73), and the opcode map as a mask and match table (R74). -/

namespace Sys2Proof

/-! ### Formats -/

/-- R70: `T = we ‖ addr ‖ wdata`. -/
def Transaction.toT (t : Transaction) : TWord := BitVec.ofBool t.we ++ t.addr ++ t.wdata

/-- R70: the three fields of a transaction word. -/
def Transaction.ofT (w : TWord) : Transaction :=
  { we := w.getLsbD 40, addr := w.extractLsb' 32 8, wdata := w.extractLsb' 0 32 }

/-- R160: the number of a response code. -/
def RespCode.code : RespCode → BitVec 2
  | .okay => 0
  | .invalidState => 1
  | .stateBoundary => 2
  | .illegal => 3

/-- R71: the response word `P`, `resp` in bits 33:32 and `rdata` in bits 31:0. -/
def Response.toP (r : Response) : PWord := r.resp.code ++ r.rdata

/-! ### The register map -/

/-- R72: the register index `i = addr[4:2]`, unsigned, 0 to 7. -/
def Addr.index (a : Addr) : Fin 8 := (a.extractLsb' 2 3).toFin

/-- R70: `addr[7:5]`, the register group. -/
def Addr.group (a : Addr) : Nat := (a.extractLsb' 5 3).toNat

/-- The register at an offset that is a multiple of 4 (R33), or none where the offset is reserved. -/
def regAt (a : Addr) : Option Reg :=
  match a.group, a.index with
  | 0, 0 => some .ctrl
  | 0, 1 => some .status
  | 0, 2 => some .countLo
  | 0, 3 => some .countHi
  | 0, 4 => some .din8
  | 0, 5 => some .din32
  | 1, i => some (.digest i)
  | 2, i => some (.msout i)
  | 3, 0 => some .msoutCntLo
  | 3, 1 => some .msoutCntHi
  | 4, i => some (.msin i)
  | 5, 0 => some .msinCntLo
  | 5, 1 => some .msinCntHi
  | _, _ => none

/-- The `dir` column of R33. -/
def Reg.dir : Reg → Dir
  | .ctrl => .writeOnly
  | .status => .readOnly
  | .countLo => .readOnly
  | .countHi => .readOnly
  | .din8 => .writeOnly
  | .din32 => .writeOnly
  | .digest _ => .readOnly
  | .msout _ => .readOnly
  | .msoutCntLo => .readOnly
  | .msoutCntHi => .readOnly
  | .msin _ => .writeOnly
  | .msinCntLo => .writeOnly
  | .msinCntHi => .writeOnly

/-- The `offset` column of R33. -/
def Reg.offset : Reg → Addr
  | .ctrl => 0x00
  | .status => 0x04
  | .countLo => 0x08
  | .countHi => 0x0C
  | .din8 => 0x10
  | .din32 => 0x14
  | .digest i => 0x20 + 4 * BitVec.ofNat 8 i.val
  | .msout i => 0x40 + 4 * BitVec.ofNat 8 i.val
  | .msoutCntLo => 0x60
  | .msoutCntHi => 0x64
  | .msin i => 0x80 + 4 * BitVec.ofNat 8 i.val
  | .msinCntLo => 0xA0
  | .msinCntHi => 0xA4

/-! ### Decoding -/

/-- R34: the command codes of `CTRL`. "The whole written word is one field": the compare is on all 32 bits. -/
def commandOf (w : Word) : Decoded :=
  match w.toNat with
  | 0 => .instr .nop
  | 1 => .instr .init
  | 2 => .instr .load
  | 3 => .instr .exportMs
  | 4 => .instr .final
  | 5 => .instr .msclr
  | _ => .illegal .reservedCommand

/-- Steps (3) and (4) of R75: the access of a register in its legal direction. -/
def Reg.access (r : Reg) (wdata : Word) : Decoded :=
  match r with
  | .ctrl => commandOf wdata
  | .status => .instr .rstatus
  | .countLo => .instr .rcntl
  | .countHi => .instr .rcnth
  | .din8 => .instr (.putb (wdata.extractLsb' 0 8))
  | .din32 => .instr (.putw wdata)
  | .digest i => .instr (.rdigest i)
  | .msout i => .instr (.rmsout i)
  | .msoutCntLo => .instr .rmsocntl
  | .msoutCntHi => .instr .rmsocnth
  | .msin i => .instr (.wmsin i wdata)
  | .msinCntLo => .instr (.wmscntl wdata)
  | .msinCntHi => .instr (.wmscnth wdata)

/-- R75, with the order of checks (1) to (3) of R166: alignment, then offset and direction, then the command code. -/
def decode (t : Transaction) : Decoded :=
  if t.addr.extractLsb' 0 2 ≠ 0 then .illegal .misaligned
  else
    match regAt t.addr with
    | none => .illegal .reservedOffset
    | some r =>
      match r.dir, t.we with
      | .readOnly, true => .illegal .writeToReadOnly
      | .writeOnly, false => .illegal .readOfWriteOnly
      | _, _ => r.access t.wdata

/-- The instruction, where there is one. -/
def Decoded.toOption : Decoded → Option Instr
  | .instr i => some i
  | .illegal _ => none

/-! ### Encoding -/

/-- The write of a register. -/
def writeOf (r : Reg) (wdata : Word) : Transaction := { we := true, addr := r.offset, wdata := wdata }

/-- The read of a register, with the canonical `wdata = 0` (R73). -/
def readOf (r : Reg) : Transaction := { we := false, addr := r.offset, wdata := 0 }

/-- R73: the canonical transaction of an instruction. -/
def encode : Instr → Transaction
  | .nop => writeOf .ctrl 0
  | .init => writeOf .ctrl 1
  | .load => writeOf .ctrl 2
  | .exportMs => writeOf .ctrl 3
  | .final => writeOf .ctrl 4
  | .msclr => writeOf .ctrl 5
  | .putb b => writeOf .din8 (b.setWidth 32)
  | .putw w => writeOf .din32 w
  | .wmsin i w => writeOf (.msin i) w
  | .wmscntl w => writeOf .msinCntLo w
  | .wmscnth w => writeOf .msinCntHi w
  | .rstatus => readOf .status
  | .rcntl => readOf .countLo
  | .rcnth => readOf .countHi
  | .rdigest i => readOf (.digest i)
  | .rmsout i => readOf (.msout i)
  | .rmsocntl => readOf .msoutCntLo
  | .rmsocnth => readOf .msoutCntHi

/-! ### The opcode map as a table -/

/-- The mnemonic of an instruction. -/
def Instr.mnemonic : Instr → Mnemonic
  | .nop => .nop
  | .init => .init
  | .load => .load
  | .exportMs => .exportMs
  | .final => .final
  | .msclr => .msclr
  | .putb _ => .putb
  | .putw _ => .putw
  | .wmsin _ _ => .wmsin
  | .wmscntl _ => .wmscntl
  | .wmscnth _ => .wmscnth
  | .rstatus => .rstatus
  | .rcntl => .rcntl
  | .rcnth => .rcnth
  | .rdigest _ => .rdigest
  | .rmsout _ => .rmsout
  | .rmsocntl => .rmsocntl
  | .rmsocnth => .rmsocnth

/-- One row of the opcode map of R74. -/
structure OpcodeRow where
  mnemonic : Mnemonic
  /-- the column `match` -/
  bits : TWord
  mask : TWord
deriving DecidableEq, Repr

/-- R74: the six commands and the two data writes. -/
def opcodeRowsA : List OpcodeRow :=
  [⟨.nop, 0x10000000000, 0x1FFFFFFFFFF⟩, ⟨.init, 0x10000000001, 0x1FFFFFFFFFF⟩,
   ⟨.load, 0x10000000002, 0x1FFFFFFFFFF⟩, ⟨.exportMs, 0x10000000003, 0x1FFFFFFFFFF⟩,
   ⟨.final, 0x10000000004, 0x1FFFFFFFFFF⟩, ⟨.msclr, 0x10000000005, 0x1FFFFFFFFFF⟩,
   ⟨.putb, 0x11000000000, 0x1FF00000000⟩, ⟨.putw, 0x11400000000, 0x1FF00000000⟩]

/-- R74: the staging writes and the reads. -/
def opcodeRowsB : List OpcodeRow :=
  [⟨.wmsin, 0x18000000000, 0x1E300000000⟩, ⟨.wmscntl, 0x1A000000000, 0x1FF00000000⟩,
   ⟨.wmscnth, 0x1A400000000, 0x1FF00000000⟩, ⟨.rstatus, 0x00400000000, 0x1FF00000000⟩,
   ⟨.rcntl, 0x00800000000, 0x1FF00000000⟩, ⟨.rcnth, 0x00C00000000, 0x1FF00000000⟩,
   ⟨.rdigest, 0x02000000000, 0x1E300000000⟩, ⟨.rmsout, 0x04000000000, 0x1E300000000⟩,
   ⟨.rmsocntl, 0x06000000000, 0x1FF00000000⟩, ⟨.rmsocnth, 0x06400000000, 0x1FF00000000⟩]

/-- R74: the complete map, 18 rows. -/
def opcodeTable : List OpcodeRow := opcodeRowsA ++ opcodeRowsB

/-- R74: "the instruction of the first row for which `T ∧ mask = match`". -/
def OpcodeRow.hit (r : OpcodeRow) (w : TWord) : Bool := w &&& r.mask = r.bits

/-- R74: the mnemonic of the first row that a transaction word matches. -/
def tableLookup (w : TWord) : Option Mnemonic := (opcodeTable.find? (·.hit w)).map (·.mnemonic)

/-! ### The host's numbering of a row's bits -/

/-- The transaction whose 41 bits are `w`'s, where the bits of `w` below `nbits` are one: a number above `2^41` is no
transaction word. -/
def transactionOfBits (nbits w : Nat) : Option Transaction :=
  if w % 2 ^ nbits < 2 ^ 41 then some (Transaction.ofT (BitVec.ofNat 41 (w % 2 ^ nbits))) else none

/-- The host event that issues the word, where there is one. -/
def eventsOfBits (nbits w : Nat) : List HostEvent :=
  match transactionOfBits nbits w with
  | some t => [.transaction t]
  | none => []

/-- The instruction the decoder reads from an instruction whose bits are `w`. `T` is a value, not bytes in a memory (R70),
so its bits are numbered as the opcode table numbers them. -/
def decodeTableWord (nbits w : Nat) : Option Instr :=
  match transactionOfBits nbits w with
  | some t => (decode t).toOption
  | none => none

end Sys2Proof
end

