-- ==== Sys2Proof/Machine/Constants.lean ====
section
/-! DEFINITION. The constants of spec/41_compression.md R107 and R108: "process-wide immutable constants", not state
(spec/10_state.md R41). -/

namespace Sys2Proof.Machine

/-- R108: `IV[0..7]`, what `H` holds after reset and after `INIT`. -/
def iv : Words8 :=
  #v[0x6a09e667, 0xbb67ae85, 0x3c6ef372, 0xa54ff53a, 0x510e527f, 0x9b05688c, 0x1f83d9ab, 0x5be0cd19]

/-- R107: the table of the rule, "row `r` holding `K[4r]` to `K[4r+3]`", the first of the four in the highest bits. -/
def roundConstantRows : List (BitVec 128) :=
  [0x428a2f98_71374491_b5c0fbcf_e9b5dba5,
   0x3956c25b_59f111f1_923f82a4_ab1c5ed5,
   0xd807aa98_12835b01_243185be_550c7dc3,
   0x72be5d74_80deb1fe_9bdc06a7_c19bf174,
   0xe49b69c1_efbe4786_0fc19dc6_240ca1cc,
   0x2de92c6f_4a7484aa_5cb0a9dc_76f988da,
   0x983e5152_a831c66d_b00327c8_bf597fc7,
   0xc6e00bf3_d5a79147_06ca6351_14292967,
   0x27b70a85_2e1b2138_4d2c6dfc_53380d13,
   0x650a7354_766a0abb_81c2c92e_92722c85,
   0xa2bfe8a1_a81a664b_c24b8b70_c76c51a3,
   0xd192e819_d6990624_f40e3585_106aa070,
   0x19a4c116_1e376c08_2748774c_34b0bcb5,
   0x391c0cb3_4ed8aa4a_5b9cca4f_682e6ff3,
   0x748f82ee_78a5636f_84c87814_8cc70208,
   0x90befffa_a4506ceb_bef9a3f7_c67178f2]

/-- R107: the four constants of a row, in the order of their indices. -/
def constantsOfRow (row : BitVec 128) : List Word :=
  [row.extractLsb' 96 32, row.extractLsb' 64 32, row.extractLsb' 32 32, row.extractLsb' 0 32]

/-- R107: `K[0..63]`, the round constants. -/
def roundConstants : List Word := roundConstantRows.flatMap constantsOfRow

end Sys2Proof.Machine
end

