-- ==== Sys2Proof/Machine/State.lean ====
section
/-! DEFINITION. The state: the engine's registers, exactly the list of spec/10_state.md R20 to R32 (spec/00_scope.md R11),
beside the host's side of the port, which R11 and R43 leave to the host and which stands here because a step is a
function of the state alone (log entries 1 and 2). -/

namespace Sys2Proof.Machine

/-- The engine: every piece of state of R20 to R32, and nothing else (R11). -/
structure Engine where
  /-- `H[0..7]`, the accumulator (R20). -/
  h : Words8
  /-- `COUNT`, the byte counter (R21). -/
  count : Count
  /-- `BUF[0..63]`, the storage of the pending buffer (R22). Dead bytes keep their values (log entry 8). -/
  buf : Block
  /-- `BUFLEN`, the number of pending bytes (R23). -/
  bufLen : BitVec 6
  /-- `DIGEST[0..7]`, the result of the last `FINAL` (R25). -/
  digest : Words8
  /-- `DIGEST_VALID` (R26). -/
  digestValid : Bool
  /-- `MSOUT[0..7]`, the accumulator of the last exported midstate (R27). -/
  msout : Words8
  /-- `MSOUT_CNT`, the byte count of the last exported midstate (R28). -/
  msoutCnt : Count
  /-- `MSOUT_VALID` (R29). -/
  msoutValid : Bool
  /-- `MSIN[0..7]`, the staged accumulator (R30). -/
  msin : Words8
  /-- `MSIN_CNT`, the staged byte count (R31). -/
  msinCnt : Count
  /-- `MSIN_MASK`, one bit per staging word (R32). -/
  msinMask : BitVec 10
deriving DecidableEq, Repr

/-- The machine's state: the engine, and the two ends of the port. -/
structure State where
  /-- The engine's registers. -/
  engine : Engine
  /-- The host's events that the engine has not served yet, oldest first (log entry 1). -/
  pending : List HostEvent
  /-- The responses returned so far, one for each transaction served, oldest first (log entry 2). -/
  responses : List Response
deriving DecidableEq, Repr

/-- Why the machine stops. It never does: "The engine has none of the first three" of faults, stuck states and hangs
(R13). No step raises a fault, and that there is no constructor says so (log entry 11). -/
inductive Fault where
deriving DecidableEq, Repr

/-- Why an instruction has no meaning. -/
inductive Refusal where
  /-- Raised by an arm of `exec` whose instruction is not modelled yet. No arm raises it: all 18 have their meaning. Safe. -/
  | notModelled (mnemonic : String)
deriving DecidableEq, Repr

/-- The engine after the reset event: the table of R45. -/
def Engine.reset : Engine where
  h := iv
  count := 0
  buf := Vector.replicate 64 0
  bufLen := 0
  digest := Vector.replicate 8 0
  digestValid := false
  msout := Vector.replicate 8 0
  msoutCnt := 0
  msoutValid := false
  msin := Vector.replicate 8 0
  msinCnt := 0
  msinMask := 0

/-- The machine right after reset (R45, R181): nothing issued and nothing answered. -/
def State.reset : State where
  engine := Engine.reset
  pending := []
  responses := []

end Sys2Proof.Machine
end

