-- ==== Sys2Proof/Machine/Operands.lean ====
section
/-! DEFINITION. Byte orders and halves: spec/00_scope.md R8 and spec/20_memory.md R52 to R57. -/

namespace Sys2Proof.Machine

/-- R8: `be32(w)`, most significant byte first. -/
def be32 (w : Word) : List Byte :=
  [w.extractLsb' 24 8, w.extractLsb' 16 8, w.extractLsb' 8 8, w.extractLsb' 0 8]

/-- R8: `be64(v)`, most significant byte first. -/
def be64 (v : Count) : List Byte := be32 (v.extractLsb' 32 32) ++ be32 (v.extractLsb' 0 32)

/-- R8: `word_be(b0, b1, b2, b3) = b0 ‖ b1 ‖ b2 ‖ b3`, the inverse of `be32`. -/
def wordBE (b0 b1 b2 b3 : Byte) : Word := b0 ++ b1 ++ b2 ++ b3

/-- R56: the half of a 64-bit quantity in its `_LO` register, bits 31:0. -/
def lowHalf (v : Count) : Word := v.extractLsb' 0 32

/-- R56: the half of a 64-bit quantity in its `_HI` register, bits 63:32. -/
def highHalf (v : Count) : Word := v.extractLsb' 32 32

/-- The 64-bit quantity with the halves `hi` and `lo`. -/
def joinHalves (hi lo : Word) : Count := hi ++ lo

/-- R31: a staging write of one half "leaves the other half as it was". -/
def withLowHalf (v : Count) (w : Word) : Count := joinHalves (highHalf v) w

/-- R31: the same for the high half. -/
def withHighHalf (v : Count) (w : Word) : Count := joinHalves w (lowHalf v)

/-- R8: `zeros(n)`. -/
def zeroBytes (n : Nat) : List Byte := List.replicate n 0

/-- A block from the first 64 bytes of a sequence. -/
def blockOf (s : List Byte) : Block := Vector.ofFn fun j => s.getD j.val 0

/-- R22: the pending buffer, the prefix `BUF[0..BUFLEN-1]`, `BUF[0]` the oldest byte. -/
def Engine.live (e : Engine) : List Byte := e.buf.toList.take e.bufLen.toNat

/-- R54, R57: eight words as 32 bytes, each `be32`, word 0 first. -/
def bytesOfWords (v : Words8) : List Byte := v.toList.flatMap be32

end Sys2Proof.Machine
end

