-- ==== Sys2Proof/Machine/Flags.lean ====
section
/-! DEFINITION. The status word, the staging mask and the tests of the state that an instruction makes: spec/10_state.md
R32 and R35, spec/60_exceptions.md R161 and R162. There are no arithmetic flags (spec/41_compression.md R116). -/

namespace Sys2Proof.Machine

/-- R93: the value of `STATUS`, with the fields of R35. -/
def Engine.status (e : Engine) : Word :=
  e.bufLen.setWidth 32 ||| ((BitVec.ofBool e.digestValid).setWidth 32 <<< 8) |||
    ((BitVec.ofBool e.msoutValid).setWidth 32 <<< 9) ||| (e.msinMask.setWidth 32 <<< 16)

/-- R32: a staging write sets its bit of the mask. -/
def maskWith (m : BitVec 10) (k : Nat) : BitVec 10 := m ||| (1#10 <<< k)

/-- R35: "The block boundary test of the source". -/
def Engine.atBoundary (e : Engine) : Bool := e.bufLen = 0

/-- R148: all eight words and both halves of the count have been staged. -/
def Engine.staged (e : Engine) : Bool := e.msinMask = 0x3FF

/-- R148: the staged count is a multiple of 64. -/
def Engine.stagedCountAligned (e : Engine) : Bool := e.msinCnt.extractLsb' 0 6 = 0

end Sys2Proof.Machine
end

