-- ==== Sys2Proof/Machine/Compress.lean ====
section
/-! DEFINITION. The compression function of spec/41_compression.md R100 to R116. "pure and deterministic" and total (R114). -/

namespace Sys2Proof.Machine

/-- R100: the right rotation. -/
def rotr (x : Word) (n : Nat) : Word := (x >>> n) ||| (x <<< (32 - n))

/-- R100: the logical right shift. -/
def shr (x : Word) (n : Nat) : Word := x >>> n

/-- R103, R104: the shape of `Σ0` and `Σ1`, three rotations by given amounts. -/
def rotations (a b c : Nat) (x : Word) : Word := rotr x a ^^^ rotr x b ^^^ rotr x c

/-- R105, R106: the shape of `σ0` and `σ1`, two rotations and a third term that is "a shift and not a rotation". -/
def rotationsAndShift (a b c : Nat) (x : Word) : Word := rotr x a ^^^ rotr x b ^^^ shr x c

/-- R103: `Σ0`. -/
def bigSigma0 : Word → Word := rotations 2 13 22

/-- R104: `Σ1`. -/
def bigSigma1 : Word → Word := rotations 6 11 25

/-- R105: `σ0`. -/
def smallSigma0 : Word → Word := rotationsAndShift 7 18 3

/-- R106: `σ1`. -/
def smallSigma1 : Word → Word := rotationsAndShift 17 19 10

/-- R101: "each result bit is the bit of `y` where `x` has 1 and the bit of `z` where `x` has 0". -/
def ch (x y z : Word) : Word := (x &&& y) ^^^ (~~~x &&& z)

/-- R109, R52: `M[t] = word_be(B[4t], B[4t+1], B[4t+2], B[4t+3])`. -/
def messageWord (b : Block) (t : Fin 16) : Word :=
  wordBE (b[4 * t.val]) (b[4 * t.val + 1]) (b[4 * t.val + 2]) (b[4 * t.val + 3])

/-- R109: the sixteen message words of a block, the last one first. -/
def messageWordsRev (b : Block) : List Word := ((List.finRange 16).map (messageWord b)).reverse

/-- R110: the next schedule word, from the words before it with the latest one first:
`W[t] = σ1(W[t-2]) + W[t-7] + σ0(W[t-15]) + W[t-16]`. -/
def nextScheduleWord (ws : List Word) : Word :=
  smallSigma1 (ws.getD 1 0) + ws.getD 6 0 + smallSigma0 (ws.getD 14 0) + ws.getD 15 0

/-- `n` further schedule words put before the words there are. -/
def extendSchedule : Nat → List Word → List Word
  | 0, ws => ws
  | n + 1, ws => extendSchedule n (nextScheduleWord ws :: ws)

/-- R110: the message schedule `W[0..63]`. -/
def schedule (b : Block) : List Word := (extendSchedule 48 (messageWordsRev b)).reverse

/-- R111: the working variables. -/
structure Vars where
  a : Word
  b : Word
  c : Word
  d : Word
  e : Word
  f : Word
  g : Word
  h : Word
deriving DecidableEq, Repr

/-- R111: the working variables "start as the input accumulator". -/
def Vars.start (acc : Words8) : Vars := ⟨acc[0], acc[1], acc[2], acc[3], acc[4], acc[5], acc[6], acc[7]⟩

/-- The working variables in the order of the accumulator's words (R113). -/
def Vars.words (v : Vars) : Words8 := #v[v.a, v.b, v.c, v.d, v.e, v.f, v.g, v.h]

/-- R102: "each result bit is the majority of the three input bits". -/
def maj (x y z : Word) : Word := (x &&& y) ^^^ (x &&& z) ^^^ (y &&& z)

/-- R112: `T1`, from the variables before the round, its round constant and its schedule word. -/
def Vars.t1 (v : Vars) (k w : Word) : Word := v.h + bigSigma1 v.e + ch v.e v.f v.g + k + w

/-- R112: `T2`. -/
def Vars.t2 (v : Vars) : Word := bigSigma0 v.a + maj v.a v.b v.c

/-- R112: the primed values, in the order of the rule, `h'` first. -/
def Vars.next (v : Vars) (t1 t2 : Word) : Vars :=
  { h := v.g
    g := v.f
    f := v.e
    e := v.d + t1
    d := v.c
    c := v.b
    b := v.a
    a := t1 + t2 }

/-- R112: one round, with its round constant and schedule word. -/
def Vars.round (v : Vars) (k w : Word) : Vars := v.next (v.t1 k w) v.t2

/-- R112: a run of rounds over pairs `(K[t], W[t])`. -/
def Vars.rounds (v : Vars) (kws : List (Word × Word)) : Vars := kws.foldl (fun v kw => v.round kw.1 kw.2) v

/-- R113: the output accumulator, "the input accumulator plus the working variables, word by word, modulo 2^32". -/
def addVars (acc : Words8) (v : Vars) : Words8 := Vector.ofFn fun i => acc[i] + v.words[i]

/-- `compress(A, B)` (R109 to R113). -/
def compress (acc : Words8) (b : Block) : Words8 :=
  addVars acc ((Vars.start acc).rounds (roundConstants.zip (schedule b)))

end Sys2Proof.Machine
end

