-- ==== Sys2Proof/Machine/Padding.lean ====
section
/-! DEFINITION. Padding and the finalization function of spec/43_finalize.md R130 and R131. -/

namespace Sys2Proof.Machine

/-- R130, R53: `L = (c × 8) mod 2^64`. -/
def bitLength (c : Count) : Count := c * 8

/-- R130: the padded final blocks as byte sequences, for a pending length `n`, a byte count `c` and pending bytes. Only
`buf[0..n-1]` is read. -/
def padBytes (n : Nat) (c : Count) (buf : List Byte) : List (List Byte) :=
  if n ≤ 55 then
    [buf.take n ++ [0x80] ++ zeroBytes (55 - n) ++ be64 (bitLength c)]
  else
    [buf.take n ++ [0x80] ++ zeroBytes (63 - n), zeroBytes 56 ++ be64 (bitLength c)]

/-- R130: `pad(n, c, buf)`, one block or two. -/
def pad (n : Nat) (c : Count) (buf : List Byte) : List Block := (padBytes n c buf).map blockOf

/-- R131: `finalize(A, n, c, buf)`, a pure function: the padded blocks compressed in sequence. -/
def finalize (acc : Words8) (n : Nat) (c : Count) (buf : List Byte) : Words8 := (pad n c buf).foldl compress acc

end Sys2Proof.Machine
end

