-- ==== Sys2Proof/Machine/Ops.lean ====
section
/-! DEFINITION. The operations the meanings share. -/

namespace Sys2Proof.Machine

/-! ### Answering a transaction -/

/-- R71: "Every transaction returns exactly one response". -/
def State.answer (s : State) (r : Response) : State := { s with responses := s.responses ++ [r] }

/-- An accepted write (R9, R71): the engine's new state, `OKAY` and `rdata = 0`. -/
def accept (e : Engine) (s : State) : Host.Outcome State Fault Refusal :=
  .next (State.answer { s with engine := e } { resp := .okay, rdata := 0 })

/-- An accepted read (R71): the value read, `OKAY`, and no state change (R62). -/
def acceptRead (v : Word) (s : State) : Host.Outcome State Fault Refusal :=
  .next (s.answer { resp := .okay, rdata := v })

/-- The machine's one exception mechanism, `raise <Code>` of R9: no state change, `rdata = 0`, the code in the response
(R165, R168). It saves nothing and sends control nowhere, so there is no return from it: "There is nothing to return from
and nothing to nest" (R169). -/
def reject (code : RespCode) (s : State) : Host.Outcome State Fault Refusal :=
  .next (s.answer { resp := code, rdata := 0 })

/-! ### Operations on the engine -/

/-- R120, the block completion: what `absorb` does to `H` and `BUFLEN` once the byte stands in `BUF`. -/
def Engine.advance (e : Engine) : Engine :=
  if e.bufLen = 63 then { e with h := compress e.h e.buf, bufLen := 0 } else { e with bufLen := e.bufLen + 1 }

/-- R120: `BUF[BUFLEN] <- b`. -/
def Engine.store (e : Engine) (b : Byte) : Engine := { e with buf := e.buf.set e.bufLen.toNat b e.bufLen.isLt }

/-- R124: "`COUNT` goes up by exactly 1 for every byte absorbed"; the addition wraps. -/
def Engine.tick (e : Engine) : Engine := { e with count := e.count + 1 }

/-- R120: `absorb(b)`. The compression is eager: the block of the 64th byte is compressed in the same step. -/
def Engine.absorb (e : Engine) (b : Byte) : Engine := { (e.store b).tick.advance with digestValid := false }

/-- The bytes of a sequence absorbed in order. -/
def Engine.absorbAll (e : Engine) (m : List Byte) : Engine := m.foldl Engine.absorb e

/-- R92: a fresh engine; the interface's own registers are left alone. -/
def Engine.fresh (e : Engine) : Engine := { e with h := iv, count := 0, bufLen := 0, digestValid := false }

/-- R148: the engine seeded from the staged midstate. -/
def Engine.seed (e : Engine) : Engine :=
  { e with h := e.msin, count := e.msinCnt, bufLen := 0, digestValid := false, msinMask := 0 }

/-- R141: the snapshot of the midstate. -/
def Engine.snapshot (e : Engine) : Engine := { e with msout := e.h, msoutCnt := e.count, msoutValid := true }

/-- R132: the digest of the message absorbed so far. -/
def Engine.messageDigest (e : Engine) : Words8 := finalize e.h e.bufLen.toNat e.count e.live

/-- R132: the digest latched; nothing else is written. -/
def Engine.latch (e : Engine) : Engine := { e with digest := e.messageDigest, digestValid := true }

/-- R145: one word of the blob staged. -/
def Engine.stageWord (e : Engine) (i : Fin 8) (w : Word) : Engine :=
  { e with msin := e.msin.set i.val w i.isLt, msinMask := maskWith e.msinMask i.val }

/-- R146: the low half of the count staged. -/
def Engine.stageCountLow (e : Engine) (w : Word) : Engine :=
  { e with msinCnt := withLowHalf e.msinCnt w, msinMask := maskWith e.msinMask 8 }

/-- R147: the high half of the count staged. -/
def Engine.stageCountHigh (e : Engine) (w : Word) : Engine :=
  { e with msinCnt := withHighHalf e.msinCnt w, msinMask := maskWith e.msinMask 9 }

/-- R149: what has been staged forgotten. -/
def Engine.clearMask (e : Engine) : Engine := { e with msinMask := 0 }

/-! ### The host's events -/

/-- R180: the reset event sets every register to its value in R45, "whatever the state was". It has no response, and the
host's own list is the host's. -/
def State.applyReset (s : State) : State := { s with engine := Engine.reset }

/-- R172: "Between transactions the engine holds its state and does nothing". -/
def State.idle (s : State) : State := s

/-- R64 (a): transactions take effect "in the order the host issued them": the oldest event, and the state in which the
host still holds the rest. -/
def State.takeEvent (s : State) : Option (HostEvent × State) :=
  match s.pending with
  | [] => none
  | ev :: rest => some (ev, { s with pending := rest })

end Sys2Proof.Machine
end

