-- ==== Sys2Proof/Machine/Finalize.lean ====
section
/-! DEFINITION. The instructions of spec/43_finalize.md. -/

namespace Sys2Proof.Machine

/-- `FINAL` (R132): "legal in every state, at a block boundary or not, any number of times". -/
def execFinal (s : State) : Host.Outcome State Fault Refusal := accept s.engine.latch s

/-- `RDIGEST i` (R133): accepted whatever `DIGEST_VALID` is. -/
def execRdigest (i : Fin 8) (s : State) : Host.Outcome State Fault Refusal := acceptRead s.engine.digest[i] s

end Sys2Proof.Machine
end

