-- ==== Sys2Proof/Machine/Lifecycle.lean ====
section
/-! DEFINITION. The instructions of spec/40_lifecycle_control.md. -/

namespace Sys2Proof.Machine

/-- `NOP` (R91): "in any state `S`, `NOP -> OKAY` leaves `S`". -/
def execNop (s : State) : Host.Outcome State Fault Refusal := accept s.engine s

/-- `INIT` (R92): "legal in every state and never rejected". -/
def execInit (s : State) : Host.Outcome State Fault Refusal := accept s.engine.fresh s

/-- `RSTATUS` (R93). -/
def execRstatus (s : State) : Host.Outcome State Fault Refusal := acceptRead s.engine.status s

/-- `RCNTL` (R94): `rdata <- COUNT[31:0]`. -/
def execRcntl (s : State) : Host.Outcome State Fault Refusal := acceptRead (lowHalf s.engine.count) s

/-- `RCNTH` (R95): `rdata <- COUNT[63:32]`. -/
def execRcnth (s : State) : Host.Outcome State Fault Refusal := acceptRead (highHalf s.engine.count) s

end Sys2Proof.Machine
end

