-- ==== Sys2Proof/Machine/Midstate.lean ====
section
/-! DEFINITION. The instructions of spec/44_midstate.md. -/

namespace Sys2Proof.Machine

/-- `EXPORT` (R141): rejected off a block boundary. -/
def execExport (s : State) : Host.Outcome State Fault Refusal :=
  if s.engine.atBoundary then accept s.engine.snapshot s else reject .stateBoundary s

/-- `RMSOUT i` (R142): accepted whatever `MSOUT_VALID` is. -/
def execRmsout (i : Fin 8) (s : State) : Host.Outcome State Fault Refusal := acceptRead s.engine.msout[i] s

/-- `RMSOCNTL` (R143): `rdata <- MSOUT_CNT[31:0]`. -/
def execRmsocntl (s : State) : Host.Outcome State Fault Refusal := acceptRead (lowHalf s.engine.msoutCnt) s

/-- `RMSOCNTH` (R144): `rdata <- MSOUT_CNT[63:32]`. -/
def execRmsocnth (s : State) : Host.Outcome State Fault Refusal := acceptRead (highHalf s.engine.msoutCnt) s

/-- `MSCLR` (R149). -/
def execMsclr (s : State) : Host.Outcome State Fault Refusal := accept s.engine.clearMask s

/-- `WMSIN i, imm32` (R145). -/
def execWmsin (i : Fin 8) (w : Word) (s : State) : Host.Outcome State Fault Refusal := accept (s.engine.stageWord i w) s

/-- `WMSCNTL imm32` (R146). -/
def execWmscntl (w : Word) (s : State) : Host.Outcome State Fault Refusal := accept (s.engine.stageCountLow w) s

/-- `WMSCNTH imm32` (R147). -/
def execWmscnth (w : Word) (s : State) : Host.Outcome State Fault Refusal := accept (s.engine.stageCountHigh w) s

/-- `LOAD` (R148), with the checks (4) and (5) of R166 in that order. -/
def execLoad (s : State) : Host.Outcome State Fault Refusal :=
  if !s.engine.staged then reject .invalidState s
  else if !s.engine.stagedCountAligned then reject .invalidState s
  else accept s.engine.seed s

end Sys2Proof.Machine
end

