-- ==== Sys2Proof/Machine/Update.lean ====
section
/-! DEFINITION. The instructions of spec/42_update.md. "Update has no error" (R126). -/

namespace Sys2Proof.Machine

/-- `PUTB imm8` (R121). -/
def execPutb (b : Byte) (s : State) : Host.Outcome State Fault Refusal := accept (s.engine.absorb b) s

/-- `PUTW imm32` (R122): four bytes, most significant first. -/
def execPutw (w : Word) (s : State) : Host.Outcome State Fault Refusal := accept (s.engine.absorbAll (be32 w)) s

end Sys2Proof.Machine
end

