-- ==== Sys2Proof/Machine/Dispatch.lean ====
section
/-! DEFINITION. The dispatch: one arm per instruction, each one direct call of its meaning. -/

namespace Sys2Proof.Machine

def exec (i : Instr) (s : State) : Host.Outcome State Fault Refusal :=
  match i with
  -- spec/40_lifecycle_control.md, spec/43_finalize.md, spec/44_midstate.md: the commands of CTRL
  | .nop => Sys2Proof.Machine.execNop s
  | .init => Sys2Proof.Machine.execInit s
  | .load => Sys2Proof.Machine.execLoad s
  | .exportMs => Sys2Proof.Machine.execExport s
  | .final => Sys2Proof.Machine.execFinal s
  | .msclr => Sys2Proof.Machine.execMsclr s
  -- spec/42_update.md
  | .putb b => Sys2Proof.Machine.execPutb b s
  | .putw w => Sys2Proof.Machine.execPutw w s
  -- spec/44_midstate.md: staging
  | .wmsin n w => Sys2Proof.Machine.execWmsin n w s
  | .wmscntl w => Sys2Proof.Machine.execWmscntl w s
  | .wmscnth w => Sys2Proof.Machine.execWmscnth w s
  -- the reads
  | .rstatus => Sys2Proof.Machine.execRstatus s
  | .rcntl => Sys2Proof.Machine.execRcntl s
  | .rcnth => Sys2Proof.Machine.execRcnth s
  | .rdigest n => Sys2Proof.Machine.execRdigest n s
  | .rmsout n => Sys2Proof.Machine.execRmsout n s
  | .rmsocntl => Sys2Proof.Machine.execRmsocntl s
  | .rmsocnth => Sys2Proof.Machine.execRmsocnth s

end Sys2Proof.Machine
end

