-- ==== Sys2Proof/Machine/Port.lean ====
section
/-! DEFINITION. The register port: one transaction served as one step (spec/00_scope.md R9, R10). -/

namespace Sys2Proof.Machine

/-- R76, R163: a transaction word that is no instruction is answered `ILLEGAL`, whatever its class; nothing is recorded. -/
def execIllegal (_why : IllegalWord) (s : State) : Host.Outcome State Fault Refusal := reject .illegal s

/-- One transaction (R10): decoded by R75 and executed. -/
def serve (t : Transaction) (s : State) : Host.Outcome State Fault Refusal :=
  match decode t with
  | .instr i => exec i s
  | .illegal why => execIllegal why s

/-- One event of the host: a transaction, or the reset event (R180). -/
def handle (ev : HostEvent) (s : State) : Host.Outcome State Fault Refusal :=
  match ev with
  | .transaction t => serve t s
  | .reset => .next s.applyReset

/-- R9: `MemRead(a, 4)`, a host read transaction at offset `a`; its canonical `wdata` is 0 (R73). -/
def memRead (a : Addr) (s : State) : Host.Outcome State Fault Refusal := serve { we := false, addr := a, wdata := 0 } s

/-- R9: `MemWrite(a, 4, v)`, a host write transaction of `v` at offset `a`. -/
def memWrite (a : Addr) (v : Word) (s : State) : Host.Outcome State Fault Refusal :=
  serve { we := true, addr := a, wdata := v } s

end Sys2Proof.Machine
end

