-- ==== Sys2Proof/Machine/Step.lean ====
section
/-! DEFINITION. The step: the engine serves the oldest event of the host, and does nothing where there is none. -/

namespace Sys2Proof.Machine

/-- One step of the machine "is one whole transaction" (R10), or the reset event between two of them (R180). -/
def step (s : State) : Host.Outcome State Fault Refusal :=
  match s.takeEvent with
  | none => .next s.idle
  | some (ev, s') => handle ev s'

/-- The state in which the host's next event is the transaction whose bits are `w` (log entry 4). -/
def State.withFetchWord (s : State) (nbits w : Nat) : State := { s with pending := eventsOfBits nbits w ++ s.pending }

end Sys2Proof.Machine
end

