-- ==== Sys2Proof/Machine/HostOps.lean ====
section
/-! DEFINITION. The host's side of the port: lists of transactions (spec/30_encoding.md R79) and the source's public
operations as the transaction lists of R80, with the byte forms of R54, R57 and R135. None of this is engine (log entry 10). -/

namespace Sys2Proof.Machine

/-! ### Transactions in sequence -/

/-- A list of transactions "executed top to bottom with no branches" (R79), from a state. -/
def serveAll : List Transaction → State → Host.Outcome State Fault Refusal
  | [], s => .next s
  | t :: ts, s =>
    match serve t s with
    | .next s' => serveAll ts s'
    | .fault r => .fault r
    | .refused r => .refused r

/-- A list of instructions executed in order. -/
def execAll : List Instr → State → Host.Outcome State Fault Refusal
  | [], s => .next s
  | i :: is, s =>
    match exec i s with
    | .next s' => execAll is s'
    | .fault r => .fault r
    | .refused r => .refused r

/-- One transaction, with the response the host gets for it. -/
def issue (i : Instr) (s : State) : Option (State × Response) :=
  match serve (encode i) s with
  | .next s' => s'.responses.getLast?.map fun r => (s', r)
  | _ => none

/-- One read, with the value read. -/
def issueRead (i : Instr) (s : State) : Option (State × Word) := (issue i s).map fun p => (p.1, p.2.rdata)

/-- Reads one after another, with the values in order. -/
def issueReads : List Instr → State → Option (State × List Word)
  | [], s => some (s, [])
  | i :: is, s =>
    match issueRead i s with
    | none => none
    | some (s', w) => (issueReads is s').map fun p => (p.1, w :: p.2)

/-! ### The source's operations -/

/-- The errors of the source that the host reports (R160). -/
inductive HostError where
  /-- `InvalidStateError` -/
  | invalidState
  /-- `StateBoundaryError` -/
  | stateBoundary
deriving DecidableEq, Repr

/-- What an operation that can fail gives the host. -/
inductive HostResult (α : Type) where
  | ok (a : α)
  | error (e : HostError)
deriving DecidableEq, Repr

/-- A midstate as the host carries it (R140, R57): the 32-byte blob, and the count beside it. -/
structure Midstate where
  blob : List Byte
  count : Count
deriving DecidableEq, Repr

/-- R80 `NEW`: `new() -> Engine`. -/
def hostNew (s : State) : Option State := (issue .init s).map (·.1)

/-- R80 `UPDATE s` by bytes: `update(engine, bytes)`. -/
def hostUpdate (m : List Byte) (s : State) : Option State :=
  match m with
  | [] => some s
  | b :: bs =>
    match issue (.putb b) s with
    | none => none
    | some (s', _) => hostUpdate bs s'

/-- The reads `RDIGEST 0` to `RDIGEST 7`. -/
def digestReads : List Instr := (List.finRange 8).map .rdigest

/-- The reads `RMSOUT 0` to `RMSOUT 7`. -/
def msoutReads : List Instr := (List.finRange 8).map .rmsout

/-- R54, R57: words as bytes, each `be32`, in order. -/
def bytesOfWordList (ws : List Word) : List Byte := ws.flatMap be32

/-- R80 `DIGEST`: `digest(engine) -> 32-byte blob`. -/
def hostDigest (s : State) : Option (State × List Byte) :=
  match issue .final s with
  | none => none
  | some (s', _) => (issueReads digestReads s').map fun p => (p.1, bytesOfWordList p.2)

/-- One of the sixteen characters `0123456789abcdef` (R135). -/
def hexDigit (n : Fin 16) : Char :=
  (['0', '1', '2', '3', '4', '5', '6', '7', '8', '9', 'a', 'b', 'c', 'd', 'e', 'f'].getD n.val '0')

/-- R135: a byte as two characters, high nibble first. -/
def hexOfByte (b : Byte) : List Char := [hexDigit (b.extractLsb' 4 4).toFin, hexDigit (b.extractLsb' 0 4).toFin]

/-- R135: the digest bytes as a lowercase hexadecimal string. -/
def hexOfBytes (m : List Byte) : List Char := m.flatMap hexOfByte

/-- R80 `HEXDIGEST`: `hexdigest(engine) -> 64-char lowercase hex string`. -/
def hostHexDigest (s : State) : Option (State × List Char) := (hostDigest s).map fun p => (p.1, hexOfBytes p.2)

/-- R80 `EXPORTMS`: `export_midstate(engine) -> 32-byte blob`, with the count that belongs to it. -/
def hostExport (s : State) : Option (State × HostResult Midstate) :=
  match issue .exportMs s with
  | none => none
  | some (s', r) =>
    if r.resp = .okay then
      match issueReads (msoutReads ++ [.rmsocntl, .rmsocnth]) s' with
      | none => none
      | some (s'', ws) =>
        some (s'', .ok { blob := bytesOfWordList (ws.take 8), count := joinHalves (ws.getD 9 0) (ws.getD 8 0) })
    else some (s', .error .stateBoundary)

/-- R80 `GETCOUNT`: `get_byte_count(engine) -> u64`, "the count is `rdata_H ‖ rdata_L`". -/
def hostGetCount (s : State) : Option (State × Count) :=
  (issueReads [.rcntl, .rcnth] s).map fun p => (p.1, joinHalves (p.2.getD 1 0) (p.2.getD 0 0))

/-- R57: the words of a blob, from its bytes in order; bytes at the end that make no whole word make none. -/
def wordsOfBlob : List Byte → List Word
  | b0 :: b1 :: b2 :: b3 :: rest => wordBE b0 b1 b2 b3 :: wordsOfBlob rest
  | _ => []

/-- The staging writes of a blob's words (R80): "A blob of fewer than eight words is sent as fewer `WMSIN` writes". -/
def stagingWrites (ws : List Word) : List Instr := ((List.finRange 8).zip ws).map fun p => .wmsin p.1 p.2

/-- R80 `IMPORTMS`: the transactions of an import, `MSCLR` first and `LOAD` last. -/
def importInstrs (ms : Midstate) : List Instr :=
  [.msclr] ++ stagingWrites (wordsOfBlob ms.blob) ++ [.wmscntl (lowHalf ms.count), .wmscnth (highHalf ms.count), .load]

/-- R80: `new_from_midstate(state, byte_count) -> Engine`. A blob of more than eight words "cannot be expressed on this
interface": the host rejects it "before touching the engine". -/
def hostImport (ms : Midstate) (s : State) : Option (State × HostResult Unit) :=
  if 32 < ms.blob.length then some (s, .error .invalidState)
  else
    match execAll (importInstrs ms) s with
    | .next s' =>
      match s'.responses.getLast? with
      | some r => some (s', if r.resp = .okay then .ok () else .error .invalidState)
      | none => none
    | _ => none

end Sys2Proof.Machine
end

