-- ==== Sys2Proof/Machine/Reference.lean ====
section
/-! DEFINITION. The SHA-256 digest of a whole message, against which spec/43_finalize.md R137 holds the engine: the message
padded at once and its blocks compressed in order from `IV`, with no buffer and no counter. Padding and byte order are the
source's (R130); that this is SHA-256 is FIPS 180-4 (spec/93_implementation_defined.md G9; PRESUMED, log entry 6). -/

namespace Sys2Proof.Machine

/-- The whole 64-byte blocks of a byte sequence, in order; bytes after the last whole block are left out. -/
def wholeBlocks (m : List Byte) : List Block :=
  (List.range (m.length / 64)).map fun k => blockOf (m.drop (64 * k))

/-- The bytes of a sequence after its last whole block: what the pending buffer holds (R24 (c)). -/
def remainder (m : List Byte) : List Byte := m.drop (64 * (m.length / 64))

/-- An accumulator after the whole blocks of a sequence (R24 (c)). -/
def hashBlocks (acc : Words8) (m : List Byte) : Words8 := (wholeBlocks m).foldl compress acc

/-- The number of zero bytes "until the buffer length ≡ 56 mod 64" (R130), for a message of `len` bytes. -/
def paddingZeros (len : Nat) : Nat := (119 - len % 64) % 64

/-- The padded message: one byte `0x80`, zeros, and the bit length as a big-endian 64-bit integer (R130). -/
def paddedMessage (m : List Byte) : List Byte :=
  m ++ [0x80] ++ zeroBytes (paddingZeros m.length) ++ be64 (BitVec.ofNat 64 (8 * m.length))

/-- The digest words of a whole message. -/
def sha256 (m : List Byte) : Words8 := hashBlocks iv (paddedMessage m)

end Sys2Proof.Machine
end

