-- ==== Sys2Proof/Safety.lean ====
section
/-! DEFINITION. The terms in which claims are stated: the invariants of spec/10_state.md R24 and R26, the history of a
message, what makes two engines the same computation, and runs whose every response is `OKAY` (spec/60_exceptions.md R170). -/

namespace Sys2Proof

/-! ### Instructions and events -/

/-- The bytes an instruction absorbs (R121, R122). -/
def Instr.absorbed : Instr → List Byte
  | .putb b => [b]
  | .putw w => Machine.be32 w
  | _ => []

/-- The instruction neither starts a new message nor imports one. -/
def Instr.continues : Instr → Bool
  | .init => false
  | .load => false
  | _ => true

/-- The event is the transaction of this instruction. -/
def HostEvent.isInstr (ev : HostEvent) (i : Instr) : Prop := ∃ t, ev = .transaction t ∧ decode t = .instr i

/-- The event absorbs message bytes. -/
def HostEvent.isPut (ev : HostEvent) : Prop := (∃ b, ev.isInstr (.putb b)) ∨ ∃ w, ev.isInstr (.putw w)

end Sys2Proof

namespace Sys2Proof.Machine

/-! ### Invariants and histories -/

/-- What holds after reset and after every step. -/
structure Engine.Inv (e : Engine) : Prop where
  /-- R24 (a): `BUFLEN = COUNT[5:0]`; R24 (b), `BUFLEN ≤ 63`, is the width of `BUFLEN`. -/
  bufLen_eq : e.bufLen = e.count.extractLsb' 0 6
  /-- R26: while `DIGEST_VALID` is 1, "`DIGEST` is the digest of the message the engine holds now". -/
  digest_eq : e.digestValid = true → e.digest = e.messageDigest
  /-- R140: "The byte count of a midstate is a multiple of 64". -/
  msoutCnt_aligned : e.msoutCnt.extractLsb' 0 6 = 0
  /-- R142: "with `MSOUT_VALID = 0` (no export since reset) the read is accepted and returns `0x00000000`". -/
  msout_zero : e.msoutValid = false → e.msout = Vector.replicate 8 0 ∧ e.msoutCnt = 0

/-- A message in progress: the accumulator and count the engine was last created with, and the bytes absorbed since. -/
structure History where
  acc : Words8
  count : Count
  bytes : List Byte
deriving DecidableEq, Repr

/-- R24 (c): the history of an engine created by reset or `INIT`. -/
def History.fresh : History := { acc := iv, count := 0, bytes := [] }

/-- R24 (c) and (d): the engine holds the message of the history. -/
structure Engine.Holds (e : Engine) (g : History) : Prop where
  /-- R140: a midstate is taken at a block boundary. -/
  boundary : g.count.extractLsb' 0 6 = 0
  /-- `COUNT = (c + |m|) mod 2^64`. -/
  count_eq : e.count = g.count + BitVec.ofNat 64 g.bytes.length
  /-- `BUFLEN` is `|m| mod 64`. -/
  bufLen_eq : e.bufLen.toNat = g.bytes.length % 64
  /-- "`BUF[0..BUFLEN-1]` is the last `|m| mod 64` bytes of `m`". -/
  live_eq : e.live = remainder g.bytes
  /-- `H` is "the result of compressing the first `⌊|m|/64⌋` blocks of `m` in order starting from" the accumulator. -/
  h_eq : e.h = hashBlocks g.acc g.bytes

/-- The history after an instruction, given the engine before it. -/
def History.after (g : History) (e : Engine) (i : Instr) : History :=
  match i with
  | .init => .fresh
  | .load => if e.staged && e.stagedCountAligned then { acc := e.msin, count := e.msinCnt, bytes := [] } else g
  | i => { g with bytes := g.bytes ++ i.absorbed }

/-- The history after one event of the host; an illegal word leaves it (R165). -/
def History.afterEvent (g : History) (e : Engine) (ev : HostEvent) : History :=
  match ev with
  | .reset => .fresh
  | .transaction t =>
    match decode t with
    | .instr i => g.after e i
    | .illegal _ => g

/-- Two engines that hold the same computation: equal `H`, `COUNT`, `BUFLEN` and live prefix of `BUF` (R125, R150). Dead
bytes of `BUF` may differ (R22). -/
structure Engine.SameComputation (e f : Engine) : Prop where
  h_eq : e.h = f.h
  count_eq : e.count = f.count
  bufLen_eq : e.bufLen = f.bufLen
  live_eq : e.live = f.live

/-- Two engines the host cannot tell apart (R22, R44): every register equal but the dead bytes of `BUF`. -/
structure Engine.Indistinguishable (e f : Engine) : Prop where
  same : e.SameComputation f
  digest_eq : e.digest = f.digest
  digestValid_eq : e.digestValid = f.digestValid
  msout_eq : e.msout = f.msout
  msoutCnt_eq : e.msoutCnt = f.msoutCnt
  msoutValid_eq : e.msoutValid = f.msoutValid
  msin_eq : e.msin = f.msin
  msinCnt_eq : e.msinCnt = f.msinCnt
  msinMask_eq : e.msinMask = f.msinMask

/-- R170: the run from `s` to `s'` in which "every response is `OKAY`". -/
def State.allOkaySince (s s' : State) : Prop :=
  ∃ rs : List Response, s'.responses = s.responses ++ rs ∧ ∀ r ∈ rs, r.resp = .okay

end Sys2Proof.Machine
end

