-- ==== Sys2Proof/Certificates/Slice0/Obligations.lean ====
section
/-! DEFINITION. The statements about the model. Each one's docstring names the rule of spec/ it formalises. A next state is
written out whole where that is possible: what is not named in it is unchanged. In it `pending` (the host's events not yet served) and `responses` (the responses
returned) are the model's own fields (log entries 1 and 2). -/

open Sys2Proof Sys2Proof.Machine

/-! ### Encoding -/

/-- spec/95_test_vectors.md section 2.1: words of every family, and words that are no instruction. -/
def Obligations.DecodesTheWordsOfTheEncodingVectors : Prop :=
  decode (Transaction.ofT 0x10000000001) = .instr .init ∧
  decode (Transaction.ofT 0x10000000004) = .instr .final ∧
  decode (Transaction.ofT 0x110ffffff61) = .instr (.putb 0x61) ∧
  decode (Transaction.ofT 0x11461626364) = .instr (.putw 0x61626364) ∧
  decode (Transaction.ofT 0x19c00635e66) = .instr (.wmsin 7 0x00635e66) ∧
  decode (Transaction.ofT 0x03c00000000) = .instr (.rdigest 7) ∧
  decode (Transaction.ofT 0x004deadbeef) = .instr .rstatus ∧
  decode (Transaction.ofT 0x10300000004) = .illegal .misaligned ∧
  decode (Transaction.ofT 0x10080000001) = .illegal .reservedCommand ∧
  decode (Transaction.ofT 0x0fc00000000) = .illegal .reservedOffset

/-- R73, with the round trip: decoding an encoded instruction gives it back; encoding what a word decodes to gives the word
with zeros in the ignored bits; words that differ only in ignored bits are the same instruction and behave identically; and
the 41-bit word and the triple `(we, addr, wdata)` of R70 carry the same. -/
def Obligations.DecodeInvertsEncode : Prop :=
  (∀ i, decode (encode i) = .instr i ∧ (encode i).canonical = encode i) ∧
  (∀ t i, decode t = .instr i → encode i = t.canonical) ∧
  (∀ t u s, t.canonical = u.canonical → decode t = decode u ∧ serve t s = serve u s) ∧
  (∀ w, (Transaction.ofT w).toT = w) ∧ ∀ t : Transaction, Transaction.ofT t.toT = t

/-- The procedure of R75 "and the table of rule R74 agree on every one of the 2^41 words", which the spec marks as derived. -/
def Obligations.DecodeAgreesWithTheOpcodeMap : Prop :=
  ∀ w : TWord, (decode (Transaction.ofT w)).toOption.map Instr.mnemonic = tableLookup w

/-- R74: "the rows are disjoint, so order does not matter". -/
def Obligations.OpcodeRowsAreDisjoint : Prop :=
  opcodeTable.length = 18 ∧
  ∀ r r' : OpcodeRow, ∀ w : TWord, r ∈ opcodeTable → r' ∈ opcodeTable → r.hit w = true → r'.hit w = true → r = r'

/-- R76: "The illegal words are, exhaustively" its classes (a) to (e); which one the decoder names follows the order of
R166; they are the words that match no row of R74; each is answered `ILLEGAL` with `rdata = 0` and no state change. -/
def Obligations.IllegalWordsAreExactlyTheFiveClasses : Prop :=
  ∀ t : Transaction,
    (t.wellFormed = true ↔ ∃ i, decode t = .instr i) ∧
    (tableLookup t.toT = none ↔ ∃ why, decode t = .illegal why) ∧
    (decode t = .illegal .misaligned ↔ t.addr.toNat % 4 ≠ 0) ∧
    (decode t = .illegal .writeToReadOnly ↔ t.addr.toNat % 4 = 0 ∧ t.we = true ∧ t.addr.isReadOnly = true) ∧
    (decode t = .illegal .readOfWriteOnly ↔ t.addr.toNat % 4 = 0 ∧ t.we = false ∧ t.addr.isWriteOnly = true) ∧
    (decode t = .illegal .reservedOffset ↔ t.addr.toNat % 4 = 0 ∧ t.addr.isReserved = true) ∧
    (decode t = .illegal .reservedCommand ↔ t.we = true ∧ t.addr = 0x00 ∧ 6 ≤ t.wdata.toNat) ∧
    ∀ why s, decode t = .illegal why →
      serve t s = .next { s with responses := s.responses ++ [{ resp := .illegal, rdata := 0 }] }

/-- R72: where each operand of an instruction stands in the transaction word; the command code "compared as a whole 32-bit
number"; "all eight values legal"; and the order of the bytes of `PUTW`. -/
def Obligations.OperandsComeFromTheirFields : Prop :=
  (∀ t i, (∃ w, decode t = .instr (.wmsin i w)) ∨ decode t = .instr (.rdigest i) ∨ decode t = .instr (.rmsout i) →
    i.val = (t.addr.extractLsb' 2 3).toNat) ∧
  (∀ i : Fin 8, ∀ w : Word, ∃ t u v : Transaction,
    decode t = .instr (.wmsin i w) ∧ decode u = .instr (.rdigest i) ∧ decode v = .instr (.rmsout i)) ∧
  (∀ n < 2 ^ 32, decode { we := true, addr := 0x00, wdata := BitVec.ofNat 32 n } =
    (if n = 0 then .instr .nop else if n = 1 then .instr .init else if n = 2 then .instr .load
     else if n = 3 then .instr .exportMs else if n = 4 then .instr .final else if n = 5 then .instr .msclr
     else .illegal .reservedCommand)) ∧
  (∀ w : Word, ∃ b : Byte, decode { we := true, addr := 0x10, wdata := w } = .instr (.putb b) ∧
    ∀ k < 8, b.getLsbD k = w.getLsbD k) ∧
  (∀ w : Word, decode { we := true, addr := 0x14, wdata := w } = .instr (.putw w) ∧
    Instr.absorbed (.putw w) = [w.extractLsb' 24 8, w.extractLsb' 16 8, w.extractLsb' 8 8, w.extractLsb' 0 8]) ∧
  ∀ t w, (∃ i, decode t = .instr (.wmsin i w)) ∨ decode t = .instr (.wmscntl w) ∨ decode t = .instr (.wmscnth w) →
    w = t.wdata

/-! ### The step, the port and the responses -/

/-- A step serves the oldest event the host has issued (R64 (a)): an instruction is executed, with the transaction taken from
the port; a word that is none is answered `ILLEGAL`; the reset event is applied. That the host's events stand in a list of the
state is the model's (log entry 1). -/
def Obligations.StepRunsTheDecodedTransaction : Prop :=
  ∀ (s : State) (rest : List HostEvent),
    (∀ x, s.pending = .transaction x :: rest →
      (∀ i, decode x = .instr i → step s = exec i { s with pending := rest }) ∧
      ∀ why, decode x = .illegal why →
        step s = .next { s with pending := rest, responses := s.responses ++ [{ resp := .illegal, rdata := 0 }] }) ∧
    (s.pending = .reset :: rest → step s = handle .reset { s with pending := rest })

/-- R45: the state after the reset event, "whatever the state was" (R180). The event "has no response". -/
def Obligations.ResetEventGivesTheResetValues : Prop :=
  ∀ s : State, ∃ t, handle .reset s = .next t ∧ t.responses = s.responses ∧ t.engine = State.reset.engine ∧
    t.engine.h = #v[0x6a09e667, 0xbb67ae85, 0x3c6ef372, 0xa54ff53a, 0x510e527f, 0x9b05688c, 0x1f83d9ab, 0x5be0cd19] ∧
    t.engine.count = 0 ∧ (∀ j : Fin 64, t.engine.buf[j] = 0) ∧ t.engine.bufLen = 0 ∧
    (∀ i : Fin 8, t.engine.digest[i] = 0 ∧ t.engine.msout[i] = 0 ∧ t.engine.msin[i] = 0) ∧
    t.engine.digestValid = false ∧ t.engine.msoutCnt = 0 ∧ t.engine.msoutValid = false ∧
    t.engine.msinCnt = 0 ∧ t.engine.msinMask = 0 ∧ t.engine.status = 0

/-- R172: "Between transactions the engine holds its state and does nothing". That a step with no event issued is such a
stretch is the model's (log entry 1). -/
def Obligations.StepWithoutEventsHoldsTheState : Prop :=
  ∀ s : State, s.pending = [] → step s = .next s

/-- How a program comes to run is the model's (log entry 4): the word placed is the transaction of the very next step. -/
def Obligations.PlacedWordIsTheNextTransaction : Prop :=
  ∀ (s : State) (w : TWord),
    step (s.withFetchWord 48 w.toNat) = serve (Transaction.ofT w) s ∧
    decodeTableWord 48 w.toNat = (decode (Transaction.ofT w)).toOption

/-- R10: "A step is a total function of the state and the request: every request has exactly one outcome, either a new state
with `OKAY` or the unchanged state with an error code". The rest is the model's choice (log entry 1): that the host's events
stand in a list of which a step takes the oldest, the reset event among them, and that a step with none issued completes too.
That no step stops in a fault is read from the spec (log entry 11). -/
def Obligations.EveryStepCompletes : Prop :=
  ∀ s : State, ∃ t, step s = .next t ∧ t.pending = s.pending.tail ∧
    (∀ x rest, s.pending = .transaction x :: rest →
      ∃ r, t.responses = s.responses ++ [r] ∧ (r.resp = .okay ∨ t.engine = s.engine))

/-- R71: "Every transaction returns exactly one response"; its layout; `rdata` is 0 for every write and every rejected
transaction. -/
def Obligations.EveryTransactionReturnsOneResponse : Prop :=
  ∀ (x : Transaction) (s : State), ∃ t r, serve x s = .next t ∧ t.pending = s.pending ∧
    t.responses = s.responses ++ [r] ∧ (x.we = true ∨ r.resp ≠ .okay → r.rdata = 0) ∧
    r.toP.extractLsb' 0 32 = r.rdata ∧
    (r.toP.extractLsb' 32 2).toNat =
      (match r.resp with | .okay => 0 | .invalidState => 1 | .stateBoundary => 2 | .illegal => 3)

/-- R165: a transaction whose response is not `OKAY` leaves the whole state of R20 to R32 as it was and returns 0; and no
accepted transaction drops input: an accepted `PUTB` or `PUTW` absorbs all its bytes, in order. -/
def Obligations.RejectedTransactionChangesNothing : Prop :=
  ∀ (x : Transaction) (s t : State) (r : Response), serve x s = .next t → t.responses = s.responses ++ [r] →
    (r.resp ≠ .okay → t.engine = s.engine ∧ r.rdata = 0) ∧
    (∀ i, decode x = .instr i → i.absorbed ≠ [] → r.resp = .okay ∧
      t.engine.count = s.engine.count + BitVec.ofNat 64 i.absorbed.length ∧
      (s.engine.bufLen.toNat + i.absorbed.length < 64 → t.engine.live = s.engine.live ++ i.absorbed) ∧
      (64 ≤ s.engine.bufLen.toNat + i.absorbed.length →
        t.engine.h = compress s.engine.h (blockOf (s.engine.live ++ i.absorbed)) ∧
        t.engine.live = (s.engine.live ++ i.absorbed).drop 64))

/-- R161 to R164: each code is raised by exactly the transactions the rules name, in exactly the cases they name. -/
def Obligations.ResponseCodesHaveExactlyTheirCauses : Prop :=
  ∀ (x : Transaction) (s t : State) (r : Response), serve x s = .next t → t.responses = s.responses ++ [r] →
    (r.resp = .invalidState ↔
      decode x = .instr .load ∧ (s.engine.msinMask ≠ 0x3FF ∨ s.engine.msinCnt.extractLsb' 0 6 ≠ 0)) ∧
    (r.resp = .stateBoundary ↔ decode x = .instr .exportMs ∧ s.engine.bufLen ≠ 0) ∧
    (r.resp = .illegal ↔ ∀ i, decode x ≠ .instr i) ∧
    (∀ i, decode x = .instr i → i ≠ .load → i ≠ .exportMs → r.resp = .okay) ∧
    (r.resp ≠ .okay → t.engine = s.engine)

/-- R62: no read has a side effect, and reads may be repeated; `NOP`, `INIT`, `FINAL`, `EXPORT`, `MSCLR` and the staging
writes repeated at once leave the state the first one left; `PUTB` and `PUTW` absorb each time; `LOAD` repeated at once is
rejected. The spec marks the rule as derived. -/
def Obligations.ReadsAndRepeatsHaveNoFurtherEffect : Prop :=
  (∀ (x : Transaction) (s t : State), x.we = false → serve x s = .next t → t.engine = s.engine) ∧
  (∀ (i : Instr) (s t : State), i.absorbed = [] → i ≠ .load → exec i s = .next t →
    ∃ u, exec i t = .next u ∧ u.engine = t.engine) ∧
  (∀ (i : Instr) (s : State), i.absorbed ≠ [] → ∃ t u, exec i s = .next t ∧ exec i t = .next u ∧
    t.engine.count ≠ s.engine.count ∧ u.engine.count ≠ t.engine.count) ∧
  (∀ s t : State, exec .load s = .next t →
    exec .load t = .next { t with responses := t.responses ++ [{ resp := .invalidState, rdata := 0 }] })

/-! ### Lifecycle and control -/

/-- R91: "in any state `S`, `NOP -> OKAY` leaves `S`". -/
def Obligations.NopLeavesTheEngineAsItWas : Prop :=
  (encode .nop).toT = 0x10000000000 ∧
  ∀ s : State, exec .nop s = .next { s with responses := s.responses ++ [{ resp := .okay, rdata := 0 }] }

/-- R92: what `INIT` writes and what it leaves; "legal in every state and never rejected". -/
def Obligations.InitMakesAFreshEngine : Prop :=
  (encode .init).toT = 0x10000000001 ∧
  ∀ s : State, exec .init s = .next { s with
    engine := { s.engine with h := iv, count := 0, bufLen := 0, digestValid := false },
    responses := s.responses ++ [{ resp := .okay, rdata := 0 }] }

/-- R93: `RSTATUS` reads the fields of R35 at their bits, 0 at the reserved bits, and changes nothing. -/
def Obligations.RstatusReadsTheStatusFields : Prop :=
  (encode .rstatus).toT = 0x00400000000 ∧
  ∀ s : State, ∃ v : Word,
    exec .rstatus s = .next { s with responses := s.responses ++ [{ resp := .okay, rdata := v }] } ∧
    v.extractLsb' 0 6 = s.engine.bufLen ∧ v.extractLsb' 6 2 = 0 ∧
    v.getLsbD 8 = s.engine.digestValid ∧ v.getLsbD 9 = s.engine.msoutValid ∧ v.extractLsb' 10 6 = 0 ∧
    v.extractLsb' 16 10 = s.engine.msinMask ∧ v.extractLsb' 26 6 = 0

/-- R94, R95: the two halves of the live counter; together they are `COUNT`. -/
def Obligations.CountReadsReturnTheLiveCounter : Prop :=
  (encode .rcntl).toT = 0x00800000000 ∧ (encode .rcnth).toT = 0x00C00000000 ∧
  ∀ s : State, ∃ lo hi : Word,
    exec .rcntl s = .next { s with responses := s.responses ++ [{ resp := .okay, rdata := lo }] } ∧
    exec .rcnth s = .next { s with responses := s.responses ++ [{ resp := .okay, rdata := hi }] } ∧
    lo = s.engine.count.extractLsb' 0 32 ∧ hi = s.engine.count.extractLsb' 32 32 ∧
    s.engine.count.toNat = hi.toNat * 2 ^ 32 + lo.toNat

/-! ### Update -/

/-- R121 with R120: `PUTB` writes `BUF[BUFLEN]`, counts one byte, compresses the block it completes and else lengthens the
pending buffer, clears `DIGEST_VALID`, and writes nothing else; the upper 24 bits of the written word are ignored. -/
def Obligations.PutbAbsorbsOneByte : Prop :=
  (∀ v : Word, decode { we := true, addr := 0x10, wdata := v } = .instr (.putb (v.extractLsb' 0 8))) ∧
  ∀ (b : Byte) (s : State), ∃ e : Engine,
    exec (.putb b) s = .next { s with engine := e, responses := s.responses ++ [{ resp := .okay, rdata := 0 }] } ∧
    (∀ j : Fin 64, e.buf[j] = if j.val = s.engine.bufLen.toNat then b else s.engine.buf[j]) ∧
    e.count.toNat = (s.engine.count.toNat + 1) % 2 ^ 64 ∧
    (s.engine.bufLen = 63 → e.h = compress s.engine.h e.buf ∧ e.bufLen = 0) ∧
    (s.engine.bufLen ≠ 63 → e.h = s.engine.h ∧ e.bufLen.toNat = s.engine.bufLen.toNat + 1) ∧
    e = { s.engine with buf := e.buf, count := e.count, h := e.h, bufLen := e.bufLen, digestValid := false }

/-- R122: "`PUTW v` leaves exactly the state that `PUTB v[31:24]`; `PUTB v[23:16]`; `PUTB v[15:8]`; `PUTB v[7:0]` leave, in
one step instead of four". -/
def Obligations.PutwEqualsFourPutbs : Prop :=
  (∀ w, (encode (.putw w)).toT = 0x11400000000 + w.setWidth 41) ∧
  ∀ (w : Word) (s : State), ∃ (t u : State) (ok : Response), ok = { resp := .okay, rdata := 0 } ∧
    exec (.putw w) s = .next t ∧
    execAll [.putb (w.extractLsb' 24 8), .putb (w.extractLsb' 16 8), .putb (w.extractLsb' 8 8),
      .putb (w.extractLsb' 0 8)] s = .next u ∧
    t.engine = u.engine ∧ t.pending = s.pending ∧ u.pending = s.pending ∧
    t.responses = s.responses ++ [ok] ∧ u.responses = s.responses ++ [ok, ok, ok, ok]

/-- R122, what `PUTW` writes and leaves, and its corner case (a): four bytes of `BUF` from `BUF[BUFLEN]` on, modulo 64;
with `BUFLEN` below 60 no block completes; from 60 on exactly one compression happens, the first bytes complete the block and
the rest start the next one. -/
def Obligations.PutwCrossesAtMostOneBoundary : Prop :=
  ∀ (w : Word) (s : State), ∃ e : Engine,
    exec (.putw w) s = .next { s with engine := e, responses := s.responses ++ [{ resp := .okay, rdata := 0 }] } ∧
    e = { s.engine with buf := e.buf, count := s.engine.count + 4, h := e.h, bufLen := e.bufLen, digestValid := false } ∧
    (∀ j : Fin 64, e.buf[j] = (be32 w).getD ((j.val + 64 - s.engine.bufLen.toNat) % 64) s.engine.buf[j]) ∧
    (s.engine.bufLen.toNat < 60 → e.h = s.engine.h ∧ e.bufLen.toNat = s.engine.bufLen.toNat + 4 ∧
      e.live = s.engine.live ++ be32 w) ∧
    (60 ≤ s.engine.bufLen.toNat →
      e.h = compress s.engine.h (blockOf (s.engine.live ++ (be32 w).take (64 - s.engine.bufLen.toNat))) ∧
      e.bufLen.toNat = s.engine.bufLen.toNat - 60 ∧
      e.live = (be32 w).drop (64 - s.engine.bufLen.toNat))

/-! ### The compression function -/

/-- R101, R102: "each result bit is the bit of `y` where `x` has 1 and the bit of `z` where `x` has 0"; "each result bit is
the majority of the three input bits". -/
def Obligations.ChooseAndMajorityWorkBitByBit : Prop :=
  ∀ x y z : Word, ∀ k < 32,
    ((ch x y z).getLsbD k = if x.getLsbD k then y.getLsbD k else z.getLsbD k) ∧
    ((maj x y z).getLsbD k =
      decide (2 ≤ (x.getLsbD k).toNat + (y.getLsbD k).toNat + (z.getLsbD k).toNat))

/-- R100 and R103 to R106: bit `k` of each function, with rotations that wrap and shifts that bring in zeros at the top. -/
def Obligations.SigmaFunctionsWorkBitByBit : Prop :=
  ∀ x : Word, ∀ k < 32,
    (bigSigma0 x).getLsbD k =
      ((x.getLsbD ((k + 2) % 32) ^^ x.getLsbD ((k + 13) % 32)) ^^ x.getLsbD ((k + 22) % 32)) ∧
    (bigSigma1 x).getLsbD k =
      ((x.getLsbD ((k + 6) % 32) ^^ x.getLsbD ((k + 11) % 32)) ^^ x.getLsbD ((k + 25) % 32)) ∧
    (smallSigma0 x).getLsbD k =
      ((x.getLsbD ((k + 7) % 32) ^^ x.getLsbD ((k + 18) % 32)) ^^ (decide (k + 3 < 32) && x.getLsbD (k + 3))) ∧
    (smallSigma1 x).getLsbD k =
      ((x.getLsbD ((k + 17) % 32) ^^ x.getLsbD ((k + 19) % 32)) ^^ (decide (k + 10 < 32) && x.getLsbD (k + 10)))

/-- R109, R110: the 64 schedule words of a block; "a block of 64 zero bytes gives `W[t] = 0` for every `t`". -/
def Obligations.ScheduleFollowsTheRecurrence : Prop :=
  (∀ b : Block, ∃ m : Fin 64 → Word, schedule b = List.ofFn m ∧
    (∀ t : Fin 16, m ⟨t.val, by omega⟩ =
      b[4 * t.val] ++ b[4 * t.val + 1] ++ b[4 * t.val + 2] ++ b[4 * t.val + 3]) ∧
    ∀ t : Fin 48, m ⟨t.val + 16, by omega⟩ =
      smallSigma1 (m ⟨t.val + 14, by omega⟩) + m ⟨t.val + 9, by omega⟩ +
        smallSigma0 (m ⟨t.val + 1, by omega⟩) + m ⟨t.val, by omega⟩) ∧
  ∀ w ∈ schedule (Vector.replicate 64 0), w = 0

/-- R111 to R113: the working variables start as the accumulator, 64 rounds follow in order, round `t` with `K[t]` and
`W[t]`, and the result is the accumulator plus the working variables, word by word. -/
def Obligations.CompressRunsSixtyFourRounds : Prop :=
  ∀ (acc : Words8) (blk : Block), ∃ v : Nat → Vars,
    v 0 = { a := acc[0], b := acc[1], c := acc[2], d := acc[3], e := acc[4], f := acc[5], g := acc[6], h := acc[7] } ∧
    (∀ t < 64, ∃ k w t1 t2 : Word, roundConstants[t]? = some k ∧ (schedule blk)[t]? = some w ∧
      t1 = (v t).h + bigSigma1 (v t).e + ch (v t).e (v t).f (v t).g + k + w ∧
      t2 = bigSigma0 (v t).a + maj (v t).a (v t).b (v t).c ∧
      v (t + 1) = { a := t1 + t2, b := (v t).a, c := (v t).b, d := (v t).c,
                    e := (v t).d + t1, f := (v t).e, g := (v t).f, h := (v t).g }) ∧
    compress acc blk = #v[acc[0] + (v 64).a, acc[1] + (v 64).b, acc[2] + (v 64).c, acc[3] + (v 64).d,
      acc[4] + (v 64).e, acc[5] + (v 64).f, acc[6] + (v 64).g, acc[7] + (v 64).h]

/-! ### Finalize -/

/-- R130: one block for a pending length up to 55 and two from 56 on, each of 64 bytes: the pending bytes, `0x80`, zeros, and
the low 64 bits of `c × 8` big-endian in the last eight bytes. Only `buf[0..n-1]` is read. -/
def Obligations.PaddedBlocksHaveTheirBytes : Prop :=
  ∀ (n : Nat) (c : Count) (buf : List Byte), n ≤ 63 → n ≤ buf.length →
    (padBytes n c buf).length = (if n ≤ 55 then 1 else 2) ∧
    (∀ p ∈ padBytes n c buf, p.length = 64) ∧
    (padBytes n c buf).flatten = (pad n c buf).flatMap Vector.toList ∧
    (∀ j < (padBytes n c buf).flatten.length, (padBytes n c buf).flatten[j]? = some
      (if j < n then buf.getD j 0
       else if j = n then 0x80
       else if j + 8 < (padBytes n c buf).flatten.length then 0
       else BitVec.ofNat 8 (8 * c.toNat / 256 ^ ((padBytes n c buf).flatten.length - 1 - j)))) ∧
    ∀ buf' : List Byte, buf'.take n = buf.take n → pad n c buf' = pad n c buf

/-- R132 with R131 and R136: `FINAL` latches the digest computed from a copy of `H`, with one compression or two, sets
`DIGEST_VALID`, and writes nothing else. -/
def Obligations.FinalLatchesTheDigest : Prop :=
  (encode .final).toT = 0x10000000004 ∧
  ∀ s : State, ∃ d : Words8,
    exec .final s = .next { s with
      engine := { s.engine with digest := d, digestValid := true },
      responses := s.responses ++ [{ resp := .okay, rdata := 0 }] } ∧
    (s.engine.bufLen.toNat ≤ 55 → ∃ p1, pad s.engine.bufLen.toNat s.engine.count s.engine.live = [p1] ∧
      d = compress s.engine.h p1) ∧
    (56 ≤ s.engine.bufLen.toNat → ∃ p1 p2, pad s.engine.bufLen.toNat s.engine.count s.engine.live = [p1, p2] ∧
      d = compress (compress s.engine.h p1) p2)

/-- R133: `RDIGEST i` reads the held word, whatever `DIGEST_VALID` is, and changes nothing. -/
def Obligations.RdigestReadsTheLatchedWord : Prop :=
  ∀ i : Fin 8, (encode (.rdigest i)).toT = 0x02000000000 + (BitVec.ofNat 41 i.val <<< 34) ∧
    ∀ s : State, exec (.rdigest i) s =
      .next { s with responses := s.responses ++ [{ resp := .okay, rdata := s.engine.digest[i] }] }

/-! ### Midstate -/

/-- R141: `EXPORT` at a block boundary takes the snapshot and writes nothing else; off a boundary it is rejected with
`STATE_BOUNDARY` and writes nothing. -/
def Obligations.ExportSnapshotsOnlyAtABoundary : Prop :=
  (encode .exportMs).toT = 0x10000000003 ∧
  ∀ s : State,
    (s.engine.bufLen = 0 → exec .exportMs s = .next { s with
      engine := { s.engine with msout := s.engine.h, msoutCnt := s.engine.count, msoutValid := true },
      responses := s.responses ++ [{ resp := .okay, rdata := 0 }] }) ∧
    (s.engine.bufLen ≠ 0 → exec .exportMs s =
      .next { s with responses := s.responses ++ [{ resp := .stateBoundary, rdata := 0 }] })

/-- R142 to R144: the reads of the snapshot, whatever `MSOUT_VALID` is; they change nothing. With no export since reset they
return zeros (in the states of `Engine.Inv`, which every step keeps). -/
def Obligations.SnapshotReadsReturnTheSnapshot : Prop :=
  (∀ i : Fin 8, (encode (.rmsout i)).toT = 0x04000000000 + (BitVec.ofNat 41 i.val <<< 34)) ∧
  (encode .rmsocntl).toT = 0x06000000000 ∧ (encode .rmsocnth).toT = 0x06400000000 ∧
  ∀ s : State,
    (∀ i : Fin 8, exec (.rmsout i) s =
      .next { s with responses := s.responses ++ [{ resp := .okay, rdata := s.engine.msout[i] }] }) ∧
    exec .rmsocntl s = .next { s with
      responses := s.responses ++ [{ resp := .okay, rdata := s.engine.msoutCnt.extractLsb' 0 32 }] } ∧
    exec .rmsocnth s = .next { s with
      responses := s.responses ++ [{ resp := .okay, rdata := s.engine.msoutCnt.extractLsb' 32 32 }] } ∧
    (s.engine.Inv → s.engine.msoutValid = false → ∀ i : Fin 8, exec (.rmsout i) s =
      .next { s with responses := s.responses ++ [{ resp := .okay, rdata := 0 }] })

/-- R149: `MSCLR` clears `MSIN_MASK` and writes nothing else. -/
def Obligations.MsclrClearsOnlyTheMask : Prop :=
  (encode .msclr).toT = 0x10000000005 ∧
  ∀ s : State, exec .msclr s = .next { s with
    engine := { s.engine with msinMask := 0 },
    responses := s.responses ++ [{ resp := .okay, rdata := 0 }] }

/-- R145: `WMSIN i` writes `MSIN[i]` and bit `i` of the mask, and nothing else. -/
def Obligations.WmsinStagesOneWord : Prop :=
  ∀ (i : Fin 8) (w : Word),
    (encode (.wmsin i w)).toT = 0x18000000000 + (BitVec.ofNat 41 i.val <<< 34) + w.setWidth 41 ∧
    ∀ s : State, ∃ (m : Words8) (k : BitVec 10),
      exec (.wmsin i w) s = .next { s with
        engine := { s.engine with msin := m, msinMask := k },
        responses := s.responses ++ [{ resp := .okay, rdata := 0 }] } ∧
      (∀ j : Fin 8, m[j] = if j = i then w else s.engine.msin[j]) ∧
      ∀ j < 10, k.getLsbD j = (decide (j = i.val) || s.engine.msinMask.getLsbD j)

/-- R146, R147: each staging write of the count writes its half and its bit of the mask; the other half "keeps its value". -/
def Obligations.CountStagingWritesOneHalf : Prop :=
  ∀ (w : Word) (s : State), ∃ (cl ch : Count) (kl kh : BitVec 10),
    (encode (.wmscntl w)).toT = 0x1A000000000 + w.setWidth 41 ∧
    (encode (.wmscnth w)).toT = 0x1A400000000 + w.setWidth 41 ∧
    exec (.wmscntl w) s = .next { s with
      engine := { s.engine with msinCnt := cl, msinMask := kl },
      responses := s.responses ++ [{ resp := .okay, rdata := 0 }] } ∧
    exec (.wmscnth w) s = .next { s with
      engine := { s.engine with msinCnt := ch, msinMask := kh },
      responses := s.responses ++ [{ resp := .okay, rdata := 0 }] } ∧
    cl.extractLsb' 0 32 = w ∧ cl.extractLsb' 32 32 = s.engine.msinCnt.extractLsb' 32 32 ∧
    ch.extractLsb' 32 32 = w ∧ ch.extractLsb' 0 32 = s.engine.msinCnt.extractLsb' 0 32 ∧
    ∀ j < 10, kl.getLsbD j = (decide (j = 8) || s.engine.msinMask.getLsbD j) ∧
      kh.getLsbD j = (decide (j = 9) || s.engine.msinMask.getLsbD j)

/-- R148: `LOAD` seeds the engine when all ten words are staged and the count is a multiple of 64, and writes nothing else;
otherwise it is rejected with `INVALID_STATE` and nothing is written. -/
def Obligations.LoadSeedsOnlyACompleteMidstate : Prop :=
  (encode .load).toT = 0x10000000002 ∧
  ∀ s : State,
    (s.engine.msinMask = 0x3FF → s.engine.msinCnt.toNat % 64 = 0 → exec .load s = .next { s with
      engine := { s.engine with
        h := s.engine.msin, count := s.engine.msinCnt, bufLen := 0, digestValid := false, msinMask := 0 },
      responses := s.responses ++ [{ resp := .okay, rdata := 0 }] }) ∧
    (s.engine.msinMask ≠ 0x3FF ∨ s.engine.msinCnt.toNat % 64 ≠ 0 → exec .load s =
      .next { s with responses := s.responses ++ [{ resp := .invalidState, rdata := 0 }] })

/-! ### Who writes each register -/

/-- R20: `H` is written by reset, `INIT` (to `IV`), `LOAD` (from `MSIN`), and `PUTB`/`PUTW` when a block completes (to
`compress(H, block)`), and by no other step. -/
def Obligations.AccumulatorHasOnlyItsWriters : Prop :=
  ∀ s t : State, step s = .next t → t.engine.h = s.engine.h ∨ ∃ ev rest, s.pending = ev :: rest ∧
    ((ev = .reset ∧ t.engine.h = iv) ∨ (ev.isInstr .init ∧ t.engine.h = iv) ∨
     (ev.isInstr .load ∧ t.engine.h = s.engine.msin) ∨
     ∃ i, ev.isInstr i ∧ 64 ≤ s.engine.bufLen.toNat + i.absorbed.length ∧
       t.engine.h = compress s.engine.h (blockOf (s.engine.live ++ i.absorbed)))

/-- R124: "`COUNT` goes up by exactly 1 for every byte absorbed and by nothing else", modulo 2^64; `BUFLEN` goes with it
modulo 64 (R23). A new message starts them again. -/
def Obligations.CountGoesUpOnlyWithAbsorbedBytes : Prop :=
  ∀ (s t : State) (ev : HostEvent) (rest : List HostEvent), s.pending = ev :: rest → step s = .next t →
    (∀ i, ev.isInstr i → i.continues = true →
      t.engine.count.toNat = (s.engine.count.toNat + i.absorbed.length) % 2 ^ 64 ∧
      t.engine.bufLen.toNat = (s.engine.bufLen.toNat + i.absorbed.length) % 64) ∧
    (ev = .reset ∨ ev.isInstr .init → t.engine.count = 0 ∧ t.engine.bufLen = 0) ∧
    (ev.isInstr .load →
      (t.engine.count = s.engine.msinCnt ∧ t.engine.bufLen = 0) ∨
      (t.engine.count = s.engine.count ∧ t.engine.bufLen = s.engine.bufLen)) ∧
    ((∃ x why, ev = .transaction x ∧ decode x = .illegal why) →
      t.engine.count = s.engine.count ∧ t.engine.bufLen = s.engine.bufLen)

/-- R22: `BUF` is written by every absorbed byte, at `BUF[BUFLEN]`, and by reset; by nothing else, in particular not by
`INIT`, `LOAD`, `FINAL` or `EXPORT`. -/
def Obligations.BufferIsWrittenOnlyByAbsorbedBytes : Prop :=
  ∀ (s t : State) (j : Fin 64), step s = .next t → t.engine.buf[j] = s.engine.buf[j] ∨
    ∃ ev rest, s.pending = ev :: rest ∧
      ((ev = .reset ∧ t.engine.buf[j] = 0) ∨
       ∃ i k, ev.isInstr i ∧ i.absorbed[k]? = some t.engine.buf[j] ∧ j.val = (s.engine.bufLen.toNat + k) % 64)

/-- R25, R26: `DIGEST` is written only by `FINAL` and reset; `DIGEST_VALID` is set by `FINAL`, cleared by reset, `INIT`, a
successful `LOAD`, `PUTB` and `PUTW`, and changed by nothing else. -/
def Obligations.DigestLatchHasOnlyItsWriters : Prop :=
  ∀ (s t : State) (ev : HostEvent) (rest : List HostEvent), s.pending = ev :: rest → step s = .next t →
    (ev.isInstr .final → t.engine.digest = s.engine.messageDigest ∧ t.engine.digestValid = true) ∧
    (ev = .reset → t.engine.digest = Vector.replicate 8 0 ∧ t.engine.digestValid = false) ∧
    (¬ ev.isInstr .final → ev ≠ .reset → t.engine.digest = s.engine.digest) ∧
    (ev.isInstr .init ∨ ev.isPut → t.engine.digestValid = false) ∧
    (ev.isInstr .load → t.engine.digestValid =
      (if s.engine.msinMask = 0x3FF ∧ s.engine.msinCnt.toNat % 64 = 0 then false else s.engine.digestValid)) ∧
    (¬ ev.isInstr .final → ev ≠ .reset → ¬ ev.isInstr .init → ¬ ev.isInstr .load → ¬ ev.isPut →
      t.engine.digestValid = s.engine.digestValid)

/-- R27 to R29: `MSOUT` and `MSOUT_CNT` are written only by a successful `EXPORT` and reset; `MSOUT_VALID` is set by a
successful `EXPORT` and "never cleared except by reset". -/
def Obligations.SnapshotHasOnlyItsWriters : Prop :=
  ∀ (s t : State) (ev : HostEvent) (rest : List HostEvent), s.pending = ev :: rest → step s = .next t →
    (ev.isInstr .exportMs → s.engine.bufLen = 0 →
      t.engine.msout = s.engine.h ∧ t.engine.msoutCnt = s.engine.count ∧ t.engine.msoutValid = true) ∧
    (ev = .reset → t.engine.msout = Vector.replicate 8 0 ∧ t.engine.msoutCnt = 0 ∧ t.engine.msoutValid = false) ∧
    (ev ≠ .reset → ¬ (ev.isInstr .exportMs ∧ s.engine.bufLen = 0) →
      t.engine.msout = s.engine.msout ∧ t.engine.msoutCnt = s.engine.msoutCnt ∧
      t.engine.msoutValid = s.engine.msoutValid)

/-- R30 to R32: `MSIN` and `MSIN_CNT` are written only by their staging writes and reset; `MSIN_MASK` gets a bit by a staging
write, is cleared by reset, a successful `LOAD` and `MSCLR`, and by nothing else, "not by a rejected `LOAD`, not by `INIT`". -/
def Obligations.StagingHasOnlyItsWriters : Prop :=
  ∀ (s t : State) (ev : HostEvent) (rest : List HostEvent), s.pending = ev :: rest → step s = .next t →
    ((∀ i w, ¬ ev.isInstr (.wmsin i w)) → ev ≠ .reset → t.engine.msin = s.engine.msin) ∧
    ((∀ w, ¬ ev.isInstr (.wmscntl w) ∧ ¬ ev.isInstr (.wmscnth w)) → ev ≠ .reset →
      t.engine.msinCnt = s.engine.msinCnt) ∧
    (ev = .reset → t.engine.msin = Vector.replicate 8 0 ∧ t.engine.msinCnt = 0) ∧
    (ev = .reset ∨ ev.isInstr .msclr ∨
      (ev.isInstr .load ∧ s.engine.msinMask = 0x3FF ∧ s.engine.msinCnt.toNat % 64 = 0) → t.engine.msinMask = 0) ∧
    (∀ k < 10, s.engine.msinMask.getLsbD k = true → t.engine.msinMask.getLsbD k = false →
      ev = .reset ∨ ev.isInstr .msclr ∨
      (ev.isInstr .load ∧ s.engine.msinMask = 0x3FF ∧ s.engine.msinCnt.toNat % 64 = 0)) ∧
    (∀ k < 10, s.engine.msinMask.getLsbD k = false → t.engine.msinMask.getLsbD k = true →
      (∃ i w, ev.isInstr (.wmsin i w) ∧ k = i.val) ∨ (∃ w, ev.isInstr (.wmscntl w) ∧ k = 8) ∨
      ∃ w, ev.isInstr (.wmscnth w) ∧ k = 9)

/-! ### Invariants -/

/-- The invariant `Engine.Inv` holds after reset: R24 (a), and the meaning of `DIGEST_VALID` and `MSOUT_VALID`. -/
def Obligations.ResetMeetsTheEngineInvariant : Prop := State.reset.engine.Inv

/-- R24 (a) and (b), R26, R140 and R142: "Invariants that hold after reset and after every step", which the spec marks as
derived. -/
def Obligations.StepKeepsTheEngineInvariant : Prop :=
  ∀ s t : State, s.engine.Inv → step s = .next t → t.engine.Inv

/-- After reset the engine holds the empty message (R181, R24 (c)), and so does it after `INIT` in any state, "observably
equal to the engine after reset as far as update, finalize and export go", which R92 marks as derived. -/
def Obligations.ResetAndInitHoldTheEmptyMessage : Prop :=
  State.reset.engine.Holds History.fresh ∧
  ∀ s : State, ∃ t, exec .init s = .next t ∧ t.engine.Holds History.fresh ∧ t.engine.SameComputation State.reset.engine

/-- R24 (c) and (d): along every step the engine holds the bytes absorbed since it was last created: `COUNT`, `BUFLEN`, the
live bytes of `BUF` and `H` are what those bytes give, from `IV` or from the accumulator and count of the last `LOAD`. The spec
marks them as derived. -/
def Obligations.StepKeepsTheMessageHistory : Prop :=
  ∀ (s t : State) (g : History), s.engine.Holds g → step s = .next t →
    t.engine.Holds (match s.pending with | [] => g | ev :: _ => g.afterEvent s.engine ev)

/-- R137: "For a fresh engine that has absorbed the byte sequence `m` with `|m| < 2^61`, `FINAL` latches the SHA-256 digest
of `m`", which the spec marks as derived. The reference `sha256` is the model's reading of "the SHA-256 digest" (PRESUMED, log
entry 6): it shares the engine's compression and constants, so a wrong constant would stand in both and this would still hold. -/
def Obligations.FinalLatchesTheSha256OfTheMessage : Prop :=
  ∀ (s : State) (m : List Byte), s.engine.Holds { History.fresh with bytes := m } → m.length < 2 ^ 61 →
    ∃ t, exec .final s = .next t ∧ t.engine.digest = sha256 m ∧ t.engine.digestValid = true

/-- R125: what `H`, `COUNT`, `BUFLEN` and the live prefix of `BUF` are after absorbing a byte sequence depends only on the
starting state and the sequence, not on how it was cut into `PUTB` and `PUTW` nor on what reads, `NOP`, `FINAL`, `EXPORT`,
`MSCLR` or staging writes came in between. The spec marks it as derived. -/
def Obligations.ChunkingDoesNotMatter : Prop :=
  ∀ (p q : List Instr) (s u : State), (∀ i ∈ p, i.continues = true) → (∀ i ∈ q, i.continues = true) →
    p.flatMap Instr.absorbed = q.flatMap Instr.absorbed → s.engine.SameComputation u.engine →
    ∃ t v, execAll p s = .next t ∧ execAll q u = .next v ∧ t.engine.SameComputation v.engine

/-- R22: "Bytes at index `j ≥ BUFLEN` are dead: no rule reads them before they are overwritten": two engines that differ in
dead bytes only answer every transaction alike and still differ in dead bytes only. The spec marks it as derived. -/
def Obligations.DeadBufferBytesAreNeverSeen : Prop :=
  ∀ (x : Transaction) (s u : State), s.engine.Indistinguishable u.engine →
    ∃ t v r, serve x s = .next t ∧ serve x u = .next v ∧
      t.responses = s.responses ++ [r] ∧ v.responses = u.responses ++ [r] ∧
      t.engine.Indistinguishable v.engine

/-! ### The source's operations -/

/-- R137 and R54 at the port, with R136 (R137 and R136 are marked as derived): `new`, `update(m)`, `digest` give the 32 bytes
of the SHA-256 digest of `m`, and `digest` twice gives them twice and leaves the computation as it was. The reference `sha256`
is the model's reading (PRESUMED, log entry 6), with the engine's own compression and constants; that `update` sends its bytes
as `PUTB`, of the two forms R80 allows, is the model's choice (log entry 10). -/
def Obligations.HostDigestIsTheSha256OfTheMessage : Prop :=
  ∀ (s : State) (m : List Byte), m.length < 2 ^ 61 → ∃ s1 s2 s3 s4 dg,
    hostNew s = some s1 ∧ hostUpdate m s1 = some s2 ∧ hostDigest s2 = some (s3, dg) ∧ hostDigest s3 = some (s4, dg) ∧
    dg = bytesOfWords (sha256 m) ∧ dg.length = 32 ∧
    s3.engine.SameComputation s2.engine ∧ s4.engine.SameComputation s2.engine ∧ State.allOkaySince s s4

/-- R150: a fresh engine absorbs `P`, a whole number of blocks, and is exported; any engine imports the midstate and absorbs
`S`; it then holds the computation of a fresh engine that absorbed `P ++ S`, and gives its digest. The spec marks the guarantee
at the port as derived. That the host's `update` sends its bytes as `PUTB` is the model's choice (log entry 10). -/
def Obligations.ImportedMidstateResumesTheMessage : Prop :=
  ∀ (s u : State) (p m : List Byte), p.length % 64 = 0 → ∃ s1 s2 s3 ms u1 u2 u3 s4 s5 dg,
    hostNew s = some s1 ∧ hostUpdate p s1 = some s2 ∧ hostExport s2 = some (s3, .ok ms) ∧
    ms.blob.length = 32 ∧ ms.count = BitVec.ofNat 64 p.length ∧
    hostImport ms u = some (u1, .ok ()) ∧ hostUpdate m u1 = some u2 ∧ hostDigest u2 = some (u3, dg) ∧
    hostUpdate (p ++ m) s1 = some s4 ∧ hostDigest s4 = some (s5, dg) ∧
    u2.engine.SameComputation s4.engine ∧ u3.engine.SameComputation s5.engine

/-- R80 and R148: an import is rejected exactly where the blob is not 32 bytes or the count is no multiple of 64, and then
leaves the message in progress; a blob that is too long is rejected "before touching the engine". R80 speaks of blobs of whole
words; what happens to a blob that is no whole number of words is the model's choice (log entry 10): 29 to 31 bytes are sent as
seven words, which `LOAD` rejects, and 33 to 35 bytes are rejected by the host at once. -/
def Obligations.ImportRejectsExactlyMalformedMidstates : Prop :=
  ∀ (ms : Midstate) (s : State), ∃ t,
    (ms.blob.length = 32 ∧ ms.count.toNat % 64 = 0 → hostImport ms s = some (t, .ok ()) ∧
      bytesOfWords t.engine.h = ms.blob ∧ t.engine.count = ms.count ∧ t.engine.bufLen = 0) ∧
    (ms.blob.length ≠ 32 ∨ ms.count.toNat % 64 ≠ 0 → hostImport ms s = some (t, .error .invalidState) ∧
      t.engine.SameComputation s.engine ∧ (32 < ms.blob.length → t = s))

/-- R80 and R141: `export_midstate` reports `StateBoundaryError` exactly off a block boundary, and else gives the accumulator
as a 32-byte blob and the count beside it; either way the computation is not disturbed. -/
def Obligations.HostExportGivesTheMidstate : Prop :=
  ∀ s : State, ∃ t,
    (s.engine.bufLen = 0 → hostExport s = some (t, .ok { blob := bytesOfWords s.engine.h, count := s.engine.count })) ∧
    (s.engine.bufLen ≠ 0 → hostExport s = some (t, .error .stateBoundary)) ∧
    t.engine.SameComputation s.engine

/-- R36: the two reads "Together they are the source's `get_byte_count(engine) -> u64`". -/
def Obligations.HostGetCountIsTheLiveCount : Prop :=
  ∀ s : State, ∃ t, hostGetCount s = some (t, s.engine.count) ∧ t.engine = s.engine

/-- R135: the host renders "each of the 32 digest bytes, in order, as two characters from `0123456789abcdef`, high nibble
first". -/
def Obligations.HexDigestRendersEachDigestByte : Prop :=
  (∀ s : State, ∃ t, hostHexDigest s = some (t, hexOfBytes (bytesOfWords s.engine.messageDigest)) ∧
    t.engine.SameComputation s.engine) ∧
  (∀ v : Words8, (hexOfBytes (bytesOfWords v)).length = 64) ∧
  ∀ m : List Byte, ∀ k < m.length, ∃ b : Byte, ∃ hi lo : Char, m[k]? = some b ∧
    (hexOfBytes m)[2 * k]? = some hi ∧ (hexOfBytes m)[2 * k + 1]? = some lo ∧
    hi.toNat = (if b.toNat / 16 < 10 then 48 + b.toNat / 16 else 87 + b.toNat / 16) ∧
    lo.toNat = (if b.toNat % 16 < 10 then 48 + b.toNat % 16 else 87 + b.toNat % 16)
end

