-- ==== Sys2Proof/Config.lean ====
section
/-! DEFINITION. What spec/00_scope.md R4 leaves to the platform. Of its parameters only `BASE` and `BUS` are `OPEN`; every
other one is fixed by the rules and stands in the types and definitions that use it. `BUS` is a pin-level protocol: nothing
of it is visible at the level of transactions (R51), so it has no counterpart here (log entry 5). No rule of the spec
draws a free value (R13), so there is none. -/

namespace Sys2Proof

/-- `BASE` (R51): the position of the register window in the platform's address map, left `OPEN`; "no rule reads `BASE`". -/
opaque Config.base : Nat

/-- The platform address of a register of the window: "Every offset in this spec is relative to `BASE`" (R51). -/
def Config.platformAddress (offset : Addr) : Nat := Config.base + offset.toNat

end Sys2Proof
end

