-- ==== Sys2Proof/Laws/Bytes.lean ====
section
/-! SUPPORT. Byte sequences, blocks and their words. -/

namespace Sys2Proof.Machine

/-! ### Serialization (R8) -/

@[simp] theorem be32_length (w : Word) : (be32 w).length = 4 := rfl

@[simp] theorem be64_length (v : Count) : (be64 v).length = 8 := rfl

@[simp] theorem zeroBytes_length (n : Nat) : (zeroBytes n).length = n := by simp [zeroBytes]

/-- R8: `word_be` is the inverse of `be32`. -/
theorem wordBE_be32 (w : Word) :
    wordBE (w.extractLsb' 24 8) (w.extractLsb' 16 8) (w.extractLsb' 8 8) (w.extractLsb' 0 8) = w := by
  apply BitVec.eq_of_getLsbD_eq
  intro k hk
  simp only [wordBE, BitVec.getLsbD_append, BitVec.getLsbD_extractLsb']
  split
  · simp [*]
  · split
    · rw [decide_eq_true (by omega)]
      simp [show 8 + (k - 8) = k by omega]
    · split
      · rw [decide_eq_true (by omega)]
        simp [show 16 + (k - 8 - 8) = k by omega]
      · rw [decide_eq_true (by omega)]
        simp [show 24 + (k - 8 - 8 - 8) = k by omega]

theorem be32_wordBE (a b c d : Byte) : be32 (wordBE a b c d) = [a, b, c, d] := by
  simp only [be32, wordBE, List.cons.injEq, and_true]
  refine ⟨?_, ?_, ?_, ?_⟩ <;> apply BitVec.eq_of_getLsbD_eq <;> intro k hk <;>
    simp only [BitVec.getLsbD_append, BitVec.getLsbD_extractLsb', decide_eq_true hk, Bool.true_and]
  · rw [if_neg (by omega), if_neg (by omega), if_neg (by omega)]; congr 1; omega
  · rw [if_neg (by omega), if_neg (by omega), if_pos (by omega)]; congr 1; omega
  · rw [if_neg (by omega), if_pos (by omega)]; congr 1; omega
  · rw [if_pos (by omega)]; congr 1; omega

/-- R56: the halves of a 64-bit quantity joined are the quantity. -/
theorem joinHalves_halves (v : Count) : joinHalves (highHalf v) (lowHalf v) = v := by
  apply BitVec.eq_of_getLsbD_eq
  intro k hk
  simp only [joinHalves, highHalf, lowHalf, BitVec.getLsbD_append, BitVec.getLsbD_extractLsb']
  split
  · simp [*]
  · rw [decide_eq_true (by omega)]
    simp [show 32 + (k - 32) = k by omega]

theorem lowHalf_joinHalves (hi lo : Word) : lowHalf (joinHalves hi lo) = lo := by
  apply BitVec.eq_of_getLsbD_eq
  intro k hk
  simp only [joinHalves, lowHalf, BitVec.getLsbD_append, BitVec.getLsbD_extractLsb', decide_eq_true hk, Bool.true_and]
  rw [if_pos (by omega)]; congr 1; omega

theorem highHalf_joinHalves (hi lo : Word) : highHalf (joinHalves hi lo) = hi := by
  apply BitVec.eq_of_getLsbD_eq
  intro k hk
  simp only [joinHalves, highHalf, BitVec.getLsbD_append, BitVec.getLsbD_extractLsb', decide_eq_true hk, Bool.true_and]
  rw [if_neg (by omega)]; congr 1; omega

/-! ### Blocks -/

theorem blockOf_getElem (s : List Byte) (j : Nat) (hj : j < 64) : (blockOf s)[j] = s.getD j 0 := by
  simp [blockOf]

/-- Only the first 64 bytes enter a block. -/
theorem blockOf_congr {s t : List Byte} (h : s.take 64 = t.take 64) : blockOf s = blockOf t := by
  apply Vector.ext
  intro j hj
  rw [blockOf_getElem, blockOf_getElem]
  have := congrArg (fun l : List Byte => l.getD j 0) h
  simpa [List.getD_eq_getElem?_getD, List.getElem?_take, hj] using this

theorem blockOf_append {s : List Byte} (h : s.length = 64) (t : List Byte) : blockOf (s ++ t) = blockOf s :=
  blockOf_congr (by rw [List.take_append_of_le_length (by omega)])

theorem blockOf_toList_append (b : Block) (t : List Byte) : blockOf (b.toList ++ t) = b := by
  apply Vector.ext
  intro j hj
  simp [blockOf_getElem, List.getD_eq_getElem?_getD, List.getElem?_append_left, hj]

theorem toList_blockOf {s : List Byte} (h : s.length = 64) : (blockOf s).toList = s := by
  apply List.ext_getElem
  · simp [h]
  · intro j h1 h2
    have hj : j < 64 := by simpa using h1
    simp [blockOf_getElem, List.getD_eq_getElem?_getD, h2]

/-! ### Padding (R130) -/

theorem padBytes_lengths {n : Nat} {buf : List Byte} (hn : n ≤ 63) (hb : n ≤ buf.length) (c : Count) :
    ∀ p ∈ padBytes n c buf, p.length = 64 := by
  intro p hp
  unfold padBytes at hp
  split at hp <;> simp at hp
  · subst hp; simp; omega
  · rcases hp with rfl | rfl <;> simp; omega

theorem padBytes_congr {n : Nat} {buf buf' : List Byte} (h : buf'.take n = buf.take n) (c : Count) :
    padBytes n c buf' = padBytes n c buf := by
  unfold padBytes; rw [h]

/-! ### Whole blocks (R24) -/

theorem wholeBlocks_nil : wholeBlocks [] = [] := rfl

theorem remainder_length (m : List Byte) : (remainder m).length = m.length % 64 := by
  simp [remainder]; omega

/-- A sequence that starts with a whole number of blocks: its blocks are those, then the rest's. -/
theorem wholeBlocks_append {p : List Byte} (hp : p.length % 64 = 0) (m : List Byte) :
    wholeBlocks (p ++ m) = wholeBlocks p ++ wholeBlocks m := by
  obtain ⟨k, hk⟩ : ∃ k, p.length = 64 * k := ⟨p.length / 64, by omega⟩
  have h1 : (p ++ m).length / 64 = k + m.length / 64 := by simp; omega
  have h2 : p.length / 64 = k := by omega
  have hl : ∀ j < k, blockOf ((p ++ m).drop (64 * j)) = blockOf (p.drop (64 * j)) := fun j hj => by
    rw [List.drop_append_of_le_length (by omega)]
    exact blockOf_congr (by rw [List.take_append_of_le_length (by simp; omega)])
  have hr : ∀ j, (p ++ m).drop (64 * (k + j)) = m.drop (64 * j) := fun j => by
    rw [List.drop_append, List.drop_eq_nil_of_le (by omega), List.nil_append]
    congr 1; omega
  rw [wholeBlocks, wholeBlocks, wholeBlocks, h1, h2, List.range_add, List.map_append, List.map_map]
  exact congrArg₂ _ (List.map_congr_left fun j hj => hl j (List.mem_range.mp hj))
    (List.map_congr_left fun j _ => congrArg blockOf (hr j))

theorem hashBlocks_append {p : List Byte} (hp : p.length % 64 = 0) (acc : Words8) (m : List Byte) :
    hashBlocks acc (p ++ m) = hashBlocks (hashBlocks acc p) m := by
  simp [hashBlocks, wholeBlocks_append hp]

/-- A sequence of one block and less than another. -/
theorem hashBlocks_one {p m : List Byte} (hp : p.length = 64) (hm : m.length < 64) (acc : Words8) :
    hashBlocks acc (p ++ m) = compress acc (blockOf p) := by
  have h : (p ++ m).length / 64 = 1 := by simp; omega
  rw [hashBlocks, wholeBlocks, h]
  simp [blockOf_append hp]

theorem hashBlocks_short {m : List Byte} (hm : m.length < 64) (acc : Words8) : hashBlocks acc m = acc := by
  simp [hashBlocks, wholeBlocks, Nat.div_eq_of_lt hm]

/-- A sequence is its whole blocks and its remainder. -/
theorem take_append_remainder (m : List Byte) : m.take (64 * (m.length / 64)) ++ remainder m = m :=
  List.take_append_drop _ m

theorem hashBlocks_whole (acc : Words8) (m : List Byte) :
    hashBlocks acc (m.take (64 * (m.length / 64))) = hashBlocks acc m := by
  conv_rhs => rw [← take_append_remainder m]
  rw [hashBlocks_append (by simp; omega), hashBlocks_short (m := remainder m) (by rw [remainder_length]; omega)]

end Sys2Proof.Machine
end

