-- ==== Sys2Proof/Laws/Compress.lean ====
section
/-! SUPPORT. The compression function: the sizes of its tables, and each word of its result. -/

namespace Sys2Proof.Machine

/-! ### Constants and schedule (R107, R110) -/

theorem roundConstants_length : roundConstants.length = 64 := rfl

theorem extendSchedule_length (n : Nat) (ws : List Word) : (extendSchedule n ws).length = n + ws.length := by
  induction n generalizing ws with
  | zero => simp [extendSchedule]
  | succ n ih => rw [extendSchedule, ih, List.length_cons]; omega

theorem schedule_length (b : Block) : (schedule b).length = 64 := by
  simp [schedule, extendSchedule_length, messageWordsRev]

/-! ### Sigma functions (R103 to R106) -/

theorem bigSigma0_eq (x : Word) : bigSigma0 x = rotr x 2 ^^^ rotr x 13 ^^^ rotr x 22 := rfl

theorem bigSigma1_eq (x : Word) : bigSigma1 x = rotr x 6 ^^^ rotr x 11 ^^^ rotr x 25 := rfl

theorem smallSigma0_eq (x : Word) : smallSigma0 x = rotr x 7 ^^^ rotr x 18 ^^^ shr x 3 := rfl

theorem smallSigma1_eq (x : Word) : smallSigma1 x = rotr x 17 ^^^ rotr x 19 ^^^ shr x 10 := rfl

/-! ### Rounds (R112) -/

/-- What a round makes of each variable. -/
theorem Vars.round_eq (v : Vars) (k w : Word) : v.round k w =
    { a := v.t1 k w + v.t2, b := v.a, c := v.b, d := v.c, e := v.d + v.t1 k w, f := v.e, g := v.f, h := v.g } := rfl

theorem Vars.rounds_nil (v : Vars) : v.rounds [] = v := rfl

theorem Vars.rounds_append (v : Vars) (p q : List (Word × Word)) : v.rounds (p ++ q) = (v.rounds p).rounds q := by
  simp [Vars.rounds]

/-! ### Result (R113) -/

theorem addVars_getElem (acc : Words8) (v : Vars) (i : Nat) (h : i < 8) :
    (addVars acc v)[i] = acc[i] + v.words[i] := by simp [addVars]

end Sys2Proof.Machine
end

