-- ==== Sys2Proof/Laws/Decode.lean ====
section
/-! SUPPORT. The formats, the register map and the decoder, each said once. -/

namespace Sys2Proof

/-! ### Formats (R70) -/

@[simp] theorem Transaction.ofT_toT (t : Transaction) : Transaction.ofT t.toT = t := by
  obtain ⟨we, addr, wdata⟩ := t
  simp only [Transaction.ofT, Transaction.toT, Transaction.mk.injEq]
  refine ⟨?_, ?_, ?_⟩
  · rw [BitVec.getLsbD_append, if_neg (by omega), BitVec.getLsbD_append, if_neg (by omega)]; simp
  · apply BitVec.eq_of_getLsbD_eq
    intro k hk
    simp only [BitVec.getLsbD_extractLsb', BitVec.getLsbD_append, decide_eq_true hk, Bool.true_and]
    rw [if_neg (by omega), if_pos (by omega)]; congr 1; omega
  · apply BitVec.eq_of_getLsbD_eq
    intro k hk
    simp only [BitVec.getLsbD_extractLsb', BitVec.getLsbD_append, decide_eq_true hk, Bool.true_and]
    rw [if_pos (by omega)]; congr 1; omega

@[simp] theorem Transaction.toT_ofT (w : TWord) : (Transaction.ofT w).toT = w := by
  apply BitVec.eq_of_getLsbD_eq
  intro k hk
  simp only [Transaction.ofT, Transaction.toT, BitVec.getLsbD_extractLsb', BitVec.getLsbD_append, BitVec.getLsbD_ofBool]
  split
  · simp [*]
  · split
    · rw [decide_eq_true (by omega)]; simp; congr 1; omega
    · rw [decide_eq_true (by omega)]; simp; congr 1; omega

/-! ### The register map (R33) -/

/-- Every register lies at its offset, which is a multiple of 4. -/
theorem regAt_offset (r : Reg) : regAt r.offset = some r ∧ r.offset.extractLsb' 0 2 = 0 := by
  cases r <;> first | decide | (rename_i i; revert i; decide)

/-- An aligned offset is the offset of the register the map gives there. -/
theorem offset_of_regAt {a : Addr} {r : Reg} (ha : a.extractLsb' 0 2 = 0) (h : regAt a = some r) : a = r.offset := by
  have key : ∀ a : Addr, a.extractLsb' 0 2 = 0 → (regAt a).map Reg.offset = none ∨ (regAt a).map Reg.offset = some a := by
    decide
  have := key a ha
  rw [h] at this
  simp at this
  exact this.symm

/-- Where an aligned offset has no register, R76 lists it as reserved, and only there. -/
theorem regAt_eq_none {a : Addr} (ha : a.extractLsb' 0 2 = 0) : regAt a = none ↔ a.isReserved = true := by
  revert ha; revert a; decide

/-! ### The decoder (R75) -/

/-- What a decoded instruction says of its word: the offset of a register, its legal direction, and its access. -/
theorem decode_eq_instr {t : Transaction} {i : Instr} :
    decode t = .instr i ↔ ∃ r : Reg, t.addr = r.offset ∧ t.we = decide (r.dir = .writeOnly) ∧ r.access t.wdata = .instr i := by
  constructor
  · intro h
    unfold decode at h
    split at h
    · cases h
    · rename_i ha
      simp only [ne_eq, not_not] at ha
      split at h
      · cases h
      · rename_i r hr
        refine ⟨r, offset_of_regAt ha hr, ?_⟩
        cases hd : r.dir <;> cases hw : t.we <;> simp_all
  · rintro ⟨r, ha, hw, hx⟩
    unfold decode
    rw [ha, (regAt_offset r).2, (regAt_offset r).1]
    cases hd : r.dir <;> simp_all

/-- The write of a write-only register decodes to its access. -/
theorem decode_writeOf {r : Reg} (h : r.dir = .writeOnly) (w : Word) : decode (writeOf r w) = r.access w := by
  simp [decode, writeOf, (regAt_offset r).1, (regAt_offset r).2, h]

/-- The read of a read-only register decodes to its access. -/
theorem decode_readOf {r : Reg} (h : r.dir = .readOnly) : decode (readOf r) = r.access 0 := by
  simp [decode, readOf, (regAt_offset r).1, (regAt_offset r).2, h]

/-- R34: the command codes. -/
theorem commandOf_eq_instr {w : Word} {i : Instr} (h : commandOf w = .instr i) :
    (w = 0 ∧ i = .nop) ∨ (w = 1 ∧ i = .init) ∨ (w = 2 ∧ i = .load) ∨ (w = 3 ∧ i = .exportMs) ∨
      (w = 4 ∧ i = .final) ∨ (w = 5 ∧ i = .msclr) := by
  have h' : ∀ n : Nat, w.toNat = n → w = BitVec.ofNat 32 n := fun n hn => by rw [← hn]; simp
  unfold commandOf at h
  split at h <;> first | (cases h; done) | skip
  all_goals
    cases h
    have := h' _ ‹_›
    simp_all

end Sys2Proof
end

