-- ==== Sys2Proof/Laws/PerInstr.lean ====
section
/-! SUPPORT. The family `Encoding`: what R73 says of each instruction's own transaction. -/

namespace Sys2Proof.Laws.Encoding

/-- R73, R76: the transaction an instruction is encoded to is well formed, has zeros in its ignored bits, and decodes to the
instruction. -/
def Statement (i : Instr) : Prop :=
  (encode i).wellFormed = true ∧ (encode i).isCanonical = true ∧ decode (encode i) = .instr i

/-- R76: a write of a write-only register other than `CTRL` is well formed whatever it writes. -/
theorem writeOf_wellFormed {r : Reg} (h : (writeOf r 0).wellFormed = true) (hc : r.offset ≠ 0) (w : Word) :
    (writeOf r w).wellFormed = true := by
  simp only [Transaction.wellFormed, Transaction.aligned, Transaction.reservedCommand, writeOf] at *
  simp only [hc, decide_false, Bool.and_false, Bool.false_and, Bool.not_false, Bool.and_true] at *
  exact h

theorem nop : Statement .nop := by unfold Statement; decide
theorem init : Statement .init := by unfold Statement; decide
theorem load : Statement .load := by unfold Statement; decide
theorem exportMs : Statement .exportMs := by unfold Statement; decide
theorem final : Statement .final := by unfold Statement; decide
theorem msclr : Statement .msclr := by unfold Statement; decide

theorem putb (b : Byte) : Statement (.putb b) := by
  refine ⟨writeOf_wellFormed (by decide) (by decide) _, ?_, ?_⟩
  · have : b.setWidth 32 &&& 255#32 = b.setWidth 32 := by
      apply BitVec.eq_of_toNat_eq
      have := b.isLt
      rw [BitVec.toNat_and, BitVec.toNat_setWidth]
      exact (Nat.and_two_pow_sub_one_eq_mod _ 8).trans (Nat.mod_eq_of_lt (by omega))
    simp [Transaction.isCanonical, Transaction.canonical, encode, writeOf, Reg.offset, this]
  · rw [encode, decode_writeOf rfl, Reg.access]
    congr 2
    apply BitVec.eq_of_getLsbD_eq
    intro k hk
    simp [hk, show k < 32 by omega]

theorem putw (w : Word) : Statement (.putw w) := by
  refine ⟨writeOf_wellFormed (by decide) (by decide) w, ?_, decode_writeOf rfl w⟩
  simp [Transaction.isCanonical, Transaction.canonical, encode, writeOf, Reg.offset]

theorem wmsin (i : Fin 8) (w : Word) : Statement (.wmsin i w) := by
  have h : ∀ i : Fin 8, (writeOf (.msin i) 0).wellFormed = true ∧ (Reg.msin i).offset ≠ 0 ∧
      (Reg.msin i).offset ≠ 0x10 := by decide
  refine ⟨writeOf_wellFormed (h i).1 (h i).2.1 w, ?_, decode_writeOf rfl w⟩
  have h2 : (encode (.wmsin i w)).addr ≠ 0x10 := (h i).2.2
  have h3 : (encode (.wmsin i w)).canonical = encode (.wmsin i w) := by
    unfold Transaction.canonical
    rw [if_neg h2]; rfl
  simp [Transaction.isCanonical, h3]

theorem wmscntl (w : Word) : Statement (.wmscntl w) := by
  refine ⟨writeOf_wellFormed (by decide) (by decide) w, ?_, decode_writeOf rfl w⟩
  simp [Transaction.isCanonical, Transaction.canonical, encode, writeOf, Reg.offset]

theorem wmscnth (w : Word) : Statement (.wmscnth w) := by
  refine ⟨writeOf_wellFormed (by decide) (by decide) w, ?_, decode_writeOf rfl w⟩
  simp [Transaction.isCanonical, Transaction.canonical, encode, writeOf, Reg.offset]

theorem rstatus : Statement .rstatus := by unfold Statement; decide
theorem rcntl : Statement .rcntl := by unfold Statement; decide
theorem rcnth : Statement .rcnth := by unfold Statement; decide
theorem rdigest (i : Fin 8) : Statement (.rdigest i) := by unfold Statement; revert i; decide
theorem rmsout (i : Fin 8) : Statement (.rmsout i) := by unfold Statement; revert i; decide
theorem rmsocntl : Statement .rmsocntl := by unfold Statement; decide
theorem rmsocnth : Statement .rmsocnth := by unfold Statement; decide

end Sys2Proof.Laws.Encoding
end

