-- ==== Sys2Proof/Laws/State.lean ====
section
/-! SUPPORT. The small lemmas of the state's updates: one per field and update, true by definition, so that no later proof
unfolds a record update. -/

namespace Sys2Proof.Machine

variable (e : Engine) (s : State)

/-! ### The two ends of the port -/

@[simp] theorem State.answer_engine (r : Response) : (s.answer r).engine = s.engine := rfl
@[simp] theorem State.answer_pending (r : Response) : (s.answer r).pending = s.pending := rfl
@[simp] theorem State.answer_responses (r : Response) : (s.answer r).responses = s.responses ++ [r] := rfl
@[simp] theorem State.applyReset_engine : s.applyReset.engine = Engine.reset := rfl
@[simp] theorem State.applyReset_pending : s.applyReset.pending = s.pending := rfl
@[simp] theorem State.applyReset_responses : s.applyReset.responses = s.responses := rfl
@[simp] theorem State.idle_eq : s.idle = s := rfl

/-! ### `Engine.store` -/

@[simp] theorem Engine.store_h (b : Byte) : (e.store b).h = e.h := rfl
@[simp] theorem Engine.store_count (b : Byte) : (e.store b).count = e.count := rfl
@[simp] theorem Engine.store_buf (b : Byte) : (e.store b).buf = e.buf.set e.bufLen.toNat b e.bufLen.isLt := rfl
@[simp] theorem Engine.store_bufLen (b : Byte) : (e.store b).bufLen = e.bufLen := rfl
@[simp] theorem Engine.store_digest (b : Byte) : (e.store b).digest = e.digest := rfl
@[simp] theorem Engine.store_digestValid (b : Byte) : (e.store b).digestValid = e.digestValid := rfl
@[simp] theorem Engine.store_msout (b : Byte) : (e.store b).msout = e.msout := rfl
@[simp] theorem Engine.store_msoutCnt (b : Byte) : (e.store b).msoutCnt = e.msoutCnt := rfl
@[simp] theorem Engine.store_msoutValid (b : Byte) : (e.store b).msoutValid = e.msoutValid := rfl
@[simp] theorem Engine.store_msin (b : Byte) : (e.store b).msin = e.msin := rfl
@[simp] theorem Engine.store_msinCnt (b : Byte) : (e.store b).msinCnt = e.msinCnt := rfl
@[simp] theorem Engine.store_msinMask (b : Byte) : (e.store b).msinMask = e.msinMask := rfl

/-! ### `Engine.tick` -/

@[simp] theorem Engine.tick_h : (e.tick).h = e.h := rfl
@[simp] theorem Engine.tick_count : (e.tick).count = e.count + 1 := rfl
@[simp] theorem Engine.tick_buf : (e.tick).buf = e.buf := rfl
@[simp] theorem Engine.tick_bufLen : (e.tick).bufLen = e.bufLen := rfl
@[simp] theorem Engine.tick_digest : (e.tick).digest = e.digest := rfl
@[simp] theorem Engine.tick_digestValid : (e.tick).digestValid = e.digestValid := rfl
@[simp] theorem Engine.tick_msout : (e.tick).msout = e.msout := rfl
@[simp] theorem Engine.tick_msoutCnt : (e.tick).msoutCnt = e.msoutCnt := rfl
@[simp] theorem Engine.tick_msoutValid : (e.tick).msoutValid = e.msoutValid := rfl
@[simp] theorem Engine.tick_msin : (e.tick).msin = e.msin := rfl
@[simp] theorem Engine.tick_msinCnt : (e.tick).msinCnt = e.msinCnt := rfl
@[simp] theorem Engine.tick_msinMask : (e.tick).msinMask = e.msinMask := rfl

/-! ### `Engine.fresh` -/

@[simp] theorem Engine.fresh_h : (e.fresh).h = iv := rfl
@[simp] theorem Engine.fresh_count : (e.fresh).count = 0 := rfl
@[simp] theorem Engine.fresh_buf : (e.fresh).buf = e.buf := rfl
@[simp] theorem Engine.fresh_bufLen : (e.fresh).bufLen = 0 := rfl
@[simp] theorem Engine.fresh_digest : (e.fresh).digest = e.digest := rfl
@[simp] theorem Engine.fresh_digestValid : (e.fresh).digestValid = false := rfl
@[simp] theorem Engine.fresh_msout : (e.fresh).msout = e.msout := rfl
@[simp] theorem Engine.fresh_msoutCnt : (e.fresh).msoutCnt = e.msoutCnt := rfl
@[simp] theorem Engine.fresh_msoutValid : (e.fresh).msoutValid = e.msoutValid := rfl
@[simp] theorem Engine.fresh_msin : (e.fresh).msin = e.msin := rfl
@[simp] theorem Engine.fresh_msinCnt : (e.fresh).msinCnt = e.msinCnt := rfl
@[simp] theorem Engine.fresh_msinMask : (e.fresh).msinMask = e.msinMask := rfl

/-! ### `Engine.seed` -/

@[simp] theorem Engine.seed_h : (e.seed).h = e.msin := rfl
@[simp] theorem Engine.seed_count : (e.seed).count = e.msinCnt := rfl
@[simp] theorem Engine.seed_buf : (e.seed).buf = e.buf := rfl
@[simp] theorem Engine.seed_bufLen : (e.seed).bufLen = 0 := rfl
@[simp] theorem Engine.seed_digest : (e.seed).digest = e.digest := rfl
@[simp] theorem Engine.seed_digestValid : (e.seed).digestValid = false := rfl
@[simp] theorem Engine.seed_msout : (e.seed).msout = e.msout := rfl
@[simp] theorem Engine.seed_msoutCnt : (e.seed).msoutCnt = e.msoutCnt := rfl
@[simp] theorem Engine.seed_msoutValid : (e.seed).msoutValid = e.msoutValid := rfl
@[simp] theorem Engine.seed_msin : (e.seed).msin = e.msin := rfl
@[simp] theorem Engine.seed_msinCnt : (e.seed).msinCnt = e.msinCnt := rfl
@[simp] theorem Engine.seed_msinMask : (e.seed).msinMask = 0 := rfl

/-! ### `Engine.snapshot` -/

@[simp] theorem Engine.snapshot_h : (e.snapshot).h = e.h := rfl
@[simp] theorem Engine.snapshot_count : (e.snapshot).count = e.count := rfl
@[simp] theorem Engine.snapshot_buf : (e.snapshot).buf = e.buf := rfl
@[simp] theorem Engine.snapshot_bufLen : (e.snapshot).bufLen = e.bufLen := rfl
@[simp] theorem Engine.snapshot_digest : (e.snapshot).digest = e.digest := rfl
@[simp] theorem Engine.snapshot_digestValid : (e.snapshot).digestValid = e.digestValid := rfl
@[simp] theorem Engine.snapshot_msout : (e.snapshot).msout = e.h := rfl
@[simp] theorem Engine.snapshot_msoutCnt : (e.snapshot).msoutCnt = e.count := rfl
@[simp] theorem Engine.snapshot_msoutValid : (e.snapshot).msoutValid = true := rfl
@[simp] theorem Engine.snapshot_msin : (e.snapshot).msin = e.msin := rfl
@[simp] theorem Engine.snapshot_msinCnt : (e.snapshot).msinCnt = e.msinCnt := rfl
@[simp] theorem Engine.snapshot_msinMask : (e.snapshot).msinMask = e.msinMask := rfl

/-! ### `Engine.latch` -/

@[simp] theorem Engine.latch_h : (e.latch).h = e.h := rfl
@[simp] theorem Engine.latch_count : (e.latch).count = e.count := rfl
@[simp] theorem Engine.latch_buf : (e.latch).buf = e.buf := rfl
@[simp] theorem Engine.latch_bufLen : (e.latch).bufLen = e.bufLen := rfl
@[simp] theorem Engine.latch_digest : (e.latch).digest = e.messageDigest := rfl
@[simp] theorem Engine.latch_digestValid : (e.latch).digestValid = true := rfl
@[simp] theorem Engine.latch_msout : (e.latch).msout = e.msout := rfl
@[simp] theorem Engine.latch_msoutCnt : (e.latch).msoutCnt = e.msoutCnt := rfl
@[simp] theorem Engine.latch_msoutValid : (e.latch).msoutValid = e.msoutValid := rfl
@[simp] theorem Engine.latch_msin : (e.latch).msin = e.msin := rfl
@[simp] theorem Engine.latch_msinCnt : (e.latch).msinCnt = e.msinCnt := rfl
@[simp] theorem Engine.latch_msinMask : (e.latch).msinMask = e.msinMask := rfl

/-! ### `Engine.stageWord` -/

@[simp] theorem Engine.stageWord_h (i : Fin 8) (w : Word) : (e.stageWord i w).h = e.h := rfl
@[simp] theorem Engine.stageWord_count (i : Fin 8) (w : Word) : (e.stageWord i w).count = e.count := rfl
@[simp] theorem Engine.stageWord_buf (i : Fin 8) (w : Word) : (e.stageWord i w).buf = e.buf := rfl
@[simp] theorem Engine.stageWord_bufLen (i : Fin 8) (w : Word) : (e.stageWord i w).bufLen = e.bufLen := rfl
@[simp] theorem Engine.stageWord_digest (i : Fin 8) (w : Word) : (e.stageWord i w).digest = e.digest := rfl
@[simp] theorem Engine.stageWord_digestValid (i : Fin 8) (w : Word) : (e.stageWord i w).digestValid = e.digestValid := rfl
@[simp] theorem Engine.stageWord_msout (i : Fin 8) (w : Word) : (e.stageWord i w).msout = e.msout := rfl
@[simp] theorem Engine.stageWord_msoutCnt (i : Fin 8) (w : Word) : (e.stageWord i w).msoutCnt = e.msoutCnt := rfl
@[simp] theorem Engine.stageWord_msoutValid (i : Fin 8) (w : Word) : (e.stageWord i w).msoutValid = e.msoutValid := rfl
@[simp] theorem Engine.stageWord_msin (i : Fin 8) (w : Word) : (e.stageWord i w).msin = e.msin.set i.val w i.isLt := rfl
@[simp] theorem Engine.stageWord_msinCnt (i : Fin 8) (w : Word) : (e.stageWord i w).msinCnt = e.msinCnt := rfl
@[simp] theorem Engine.stageWord_msinMask (i : Fin 8) (w : Word) : (e.stageWord i w).msinMask = maskWith e.msinMask i.val := rfl

/-! ### `Engine.stageCountLow` -/

@[simp] theorem Engine.stageCountLow_h (w : Word) : (e.stageCountLow w).h = e.h := rfl
@[simp] theorem Engine.stageCountLow_count (w : Word) : (e.stageCountLow w).count = e.count := rfl
@[simp] theorem Engine.stageCountLow_buf (w : Word) : (e.stageCountLow w).buf = e.buf := rfl
@[simp] theorem Engine.stageCountLow_bufLen (w : Word) : (e.stageCountLow w).bufLen = e.bufLen := rfl
@[simp] theorem Engine.stageCountLow_digest (w : Word) : (e.stageCountLow w).digest = e.digest := rfl
@[simp] theorem Engine.stageCountLow_digestValid (w : Word) : (e.stageCountLow w).digestValid = e.digestValid := rfl
@[simp] theorem Engine.stageCountLow_msout (w : Word) : (e.stageCountLow w).msout = e.msout := rfl
@[simp] theorem Engine.stageCountLow_msoutCnt (w : Word) : (e.stageCountLow w).msoutCnt = e.msoutCnt := rfl
@[simp] theorem Engine.stageCountLow_msoutValid (w : Word) : (e.stageCountLow w).msoutValid = e.msoutValid := rfl
@[simp] theorem Engine.stageCountLow_msin (w : Word) : (e.stageCountLow w).msin = e.msin := rfl
@[simp] theorem Engine.stageCountLow_msinCnt (w : Word) : (e.stageCountLow w).msinCnt = withLowHalf e.msinCnt w := rfl
@[simp] theorem Engine.stageCountLow_msinMask (w : Word) : (e.stageCountLow w).msinMask = maskWith e.msinMask 8 := rfl

/-! ### `Engine.stageCountHigh` -/

@[simp] theorem Engine.stageCountHigh_h (w : Word) : (e.stageCountHigh w).h = e.h := rfl
@[simp] theorem Engine.stageCountHigh_count (w : Word) : (e.stageCountHigh w).count = e.count := rfl
@[simp] theorem Engine.stageCountHigh_buf (w : Word) : (e.stageCountHigh w).buf = e.buf := rfl
@[simp] theorem Engine.stageCountHigh_bufLen (w : Word) : (e.stageCountHigh w).bufLen = e.bufLen := rfl
@[simp] theorem Engine.stageCountHigh_digest (w : Word) : (e.stageCountHigh w).digest = e.digest := rfl
@[simp] theorem Engine.stageCountHigh_digestValid (w : Word) : (e.stageCountHigh w).digestValid = e.digestValid := rfl
@[simp] theorem Engine.stageCountHigh_msout (w : Word) : (e.stageCountHigh w).msout = e.msout := rfl
@[simp] theorem Engine.stageCountHigh_msoutCnt (w : Word) : (e.stageCountHigh w).msoutCnt = e.msoutCnt := rfl
@[simp] theorem Engine.stageCountHigh_msoutValid (w : Word) : (e.stageCountHigh w).msoutValid = e.msoutValid := rfl
@[simp] theorem Engine.stageCountHigh_msin (w : Word) : (e.stageCountHigh w).msin = e.msin := rfl
@[simp] theorem Engine.stageCountHigh_msinCnt (w : Word) : (e.stageCountHigh w).msinCnt = withHighHalf e.msinCnt w := rfl
@[simp] theorem Engine.stageCountHigh_msinMask (w : Word) : (e.stageCountHigh w).msinMask = maskWith e.msinMask 9 := rfl

/-! ### `Engine.clearMask` -/

@[simp] theorem Engine.clearMask_h : (e.clearMask).h = e.h := rfl
@[simp] theorem Engine.clearMask_count : (e.clearMask).count = e.count := rfl
@[simp] theorem Engine.clearMask_buf : (e.clearMask).buf = e.buf := rfl
@[simp] theorem Engine.clearMask_bufLen : (e.clearMask).bufLen = e.bufLen := rfl
@[simp] theorem Engine.clearMask_digest : (e.clearMask).digest = e.digest := rfl
@[simp] theorem Engine.clearMask_digestValid : (e.clearMask).digestValid = e.digestValid := rfl
@[simp] theorem Engine.clearMask_msout : (e.clearMask).msout = e.msout := rfl
@[simp] theorem Engine.clearMask_msoutCnt : (e.clearMask).msoutCnt = e.msoutCnt := rfl
@[simp] theorem Engine.clearMask_msoutValid : (e.clearMask).msoutValid = e.msoutValid := rfl
@[simp] theorem Engine.clearMask_msin : (e.clearMask).msin = e.msin := rfl
@[simp] theorem Engine.clearMask_msinCnt : (e.clearMask).msinCnt = e.msinCnt := rfl
@[simp] theorem Engine.clearMask_msinMask : (e.clearMask).msinMask = 0 := rfl

/-! ### `Engine.advance` and `Engine.absorb` -/

@[simp] theorem Engine.advance_count : e.advance.count = e.count := by
  unfold Engine.advance; split <;> rfl

@[simp] theorem Engine.advance_buf : e.advance.buf = e.buf := by
  unfold Engine.advance; split <;> rfl

@[simp] theorem Engine.advance_digest : e.advance.digest = e.digest := by
  unfold Engine.advance; split <;> rfl

@[simp] theorem Engine.advance_digestValid : e.advance.digestValid = e.digestValid := by
  unfold Engine.advance; split <;> rfl

@[simp] theorem Engine.advance_msout : e.advance.msout = e.msout := by
  unfold Engine.advance; split <;> rfl

@[simp] theorem Engine.advance_msoutCnt : e.advance.msoutCnt = e.msoutCnt := by
  unfold Engine.advance; split <;> rfl

@[simp] theorem Engine.advance_msoutValid : e.advance.msoutValid = e.msoutValid := by
  unfold Engine.advance; split <;> rfl

@[simp] theorem Engine.advance_msin : e.advance.msin = e.msin := by
  unfold Engine.advance; split <;> rfl

@[simp] theorem Engine.advance_msinCnt : e.advance.msinCnt = e.msinCnt := by
  unfold Engine.advance; split <;> rfl

@[simp] theorem Engine.advance_msinMask : e.advance.msinMask = e.msinMask := by
  unfold Engine.advance; split <;> rfl

theorem Engine.advance_h : e.advance.h = if e.bufLen = 63 then compress e.h e.buf else e.h := by
  unfold Engine.advance; split <;> rfl

theorem Engine.advance_bufLen : e.advance.bufLen = if e.bufLen = 63 then 0 else e.bufLen + 1 := by
  unfold Engine.advance; split <;> rfl

@[simp] theorem Engine.absorb_count (b : Byte) : (e.absorb b).count = e.count + 1 := by simp [Engine.absorb]

@[simp] theorem Engine.absorb_buf (b : Byte) : (e.absorb b).buf = e.buf.set e.bufLen.toNat b e.bufLen.isLt := by simp [Engine.absorb]

@[simp] theorem Engine.absorb_digest (b : Byte) : (e.absorb b).digest = e.digest := by simp [Engine.absorb]

@[simp] theorem Engine.absorb_digestValid (b : Byte) : (e.absorb b).digestValid = false := rfl

@[simp] theorem Engine.absorb_msout (b : Byte) : (e.absorb b).msout = e.msout := by simp [Engine.absorb]

@[simp] theorem Engine.absorb_msoutCnt (b : Byte) : (e.absorb b).msoutCnt = e.msoutCnt := by simp [Engine.absorb]

@[simp] theorem Engine.absorb_msoutValid (b : Byte) : (e.absorb b).msoutValid = e.msoutValid := by simp [Engine.absorb]

@[simp] theorem Engine.absorb_msin (b : Byte) : (e.absorb b).msin = e.msin := by simp [Engine.absorb]

@[simp] theorem Engine.absorb_msinCnt (b : Byte) : (e.absorb b).msinCnt = e.msinCnt := by simp [Engine.absorb]

@[simp] theorem Engine.absorb_msinMask (b : Byte) : (e.absorb b).msinMask = e.msinMask := by simp [Engine.absorb]

theorem Engine.absorb_h (b : Byte) :
    (e.absorb b).h = if e.bufLen = 63 then compress e.h (e.buf.set e.bufLen.toNat b e.bufLen.isLt) else e.h :=
  Engine.advance_h (e.store b).tick

theorem Engine.absorb_bufLen (b : Byte) : (e.absorb b).bufLen = if e.bufLen = 63 then 0 else e.bufLen + 1 :=
  Engine.advance_bufLen (e.store b).tick

end Sys2Proof.Machine
end

