-- ==== Sys2Proof/Laws/Ops.lean ====
section
/-! SUPPORT. What each shared operation, each instruction and a step can do, said once; later proofs cite these lemmas. -/

namespace Sys2Proof.Machine

/-! ### Answering -/

theorem accept_eq (e : Engine) (s : State) :
    accept e s = .next (State.answer { s with engine := e } { resp := .okay, rdata := 0 }) := rfl

theorem acceptRead_eq (v : Word) (s : State) : acceptRead v s = .next (s.answer { resp := .okay, rdata := v }) := rfl

theorem reject_eq (c : RespCode) (s : State) : reject c s = .next (s.answer { resp := c, rdata := 0 }) := rfl

/-- R165: a rejected transaction leaves the engine as it was. -/
theorem reject_engine {c : RespCode} {s t : State} (h : reject c s = .next t) : t.engine = s.engine := by
  cases h; rfl

/-! ### What an instruction does -/

/-- The engine after an instruction. -/
def engineAfter (i : Instr) (e : Engine) : Engine :=
  match i with
  | .init => e.fresh
  | .load => if e.staged && e.stagedCountAligned then e.seed else e
  | .exportMs => if e.atBoundary then e.snapshot else e
  | .final => e.latch
  | .msclr => e.clearMask
  | .putb b => e.absorb b
  | .putw w => e.absorbAll (be32 w)
  | .wmsin i w => e.stageWord i w
  | .wmscntl w => e.stageCountLow w
  | .wmscnth w => e.stageCountHigh w
  | _ => e

/-- The response to an instruction. -/
def responseOf (i : Instr) (e : Engine) : Response :=
  match i with
  | .load => { resp := if e.staged && e.stagedCountAligned then .okay else .invalidState, rdata := 0 }
  | .exportMs => { resp := if e.atBoundary then .okay else .stateBoundary, rdata := 0 }
  | .rstatus => { resp := .okay, rdata := e.status }
  | .rcntl => { resp := .okay, rdata := lowHalf e.count }
  | .rcnth => { resp := .okay, rdata := highHalf e.count }
  | .rdigest i => { resp := .okay, rdata := e.digest[i] }
  | .rmsout i => { resp := .okay, rdata := e.msout[i] }
  | .rmsocntl => { resp := .okay, rdata := lowHalf e.msoutCnt }
  | .rmsocnth => { resp := .okay, rdata := highHalf e.msoutCnt }
  | _ => { resp := .okay, rdata := 0 }

/-- Everything an instruction can do: it answers a next state in which the engine and the transcript of responses have
moved, and nothing else. -/
theorem exec_eq (i : Instr) (s : State) :
    exec i s = .next (State.answer { s with engine := engineAfter i s.engine } (responseOf i s.engine)) := by
  cases i <;> try rfl
  case load =>
    simp only [exec, execLoad, engineAfter, responseOf]
    cases s.engine.staged <;> cases s.engine.stagedCountAligned <;> rfl
  case exportMs =>
    simp only [exec, execExport, engineAfter, responseOf]
    cases s.engine.atBoundary <;> rfl

/-- The inversion of `exec_eq`. -/
theorem exec_next {i : Instr} {s t : State} (h : exec i s = .next t) :
    t = State.answer { s with engine := engineAfter i s.engine } (responseOf i s.engine) := by
  rw [exec_eq] at h; cases h; rfl

/-- R165: an instruction that is not answered `OKAY` leaves the engine as it was and returns 0. -/
theorem responseOf_not_okay {i : Instr} {e : Engine} (h : (responseOf i e).resp ≠ .okay) :
    engineAfter i e = e ∧ (responseOf i e).rdata = 0 := by
  cases i <;> first | exact absurd rfl h | skip
  case load =>
    simp only [responseOf, engineAfter] at *
    split at h <;> simp_all
  case exportMs =>
    simp only [responseOf, engineAfter] at *
    split at h <;> simp_all

/-! ### The port and the step -/

theorem serve_of_instr {t : Transaction} {i : Instr} (h : decode t = .instr i) (s : State) : serve t s = exec i s := by
  simp [serve, h]

theorem serve_of_illegal {t : Transaction} {why : IllegalWord} (h : decode t = .illegal why) (s : State) :
    serve t s = .next (s.answer { resp := .illegal, rdata := 0 }) := by
  simp [serve, h, execIllegal, reject]

theorem step_of_nil {s : State} (h : s.pending = []) : step s = .next s := by
  simp [step, State.takeEvent, h]

theorem step_of_reset {s : State} {rest : List HostEvent} (h : s.pending = .reset :: rest) :
    step s = .next { s with engine := Engine.reset, pending := rest } := by
  simp [step, State.takeEvent, h, handle, State.applyReset]

theorem step_of_transaction {s : State} {t : Transaction} {rest : List HostEvent}
    (h : s.pending = .transaction t :: rest) : step s = serve t { s with pending := rest } := by
  simp [step, State.takeEvent, h, handle]

/-- Everything a step can do: it is idle, it resets the engine, it executes the instruction of the oldest transaction, or it
answers `ILLEGAL` to a word that is none. -/
theorem step_cases {s t : State} (h : step s = .next t) :
    (s.pending = [] ∧ t = s) ∨
    (∃ rest, s.pending = .reset :: rest ∧ t = { s with engine := Engine.reset, pending := rest }) ∨
    (∃ x rest i, s.pending = .transaction x :: rest ∧ decode x = .instr i ∧
      t = State.answer { s with engine := engineAfter i s.engine, pending := rest } (responseOf i s.engine)) ∨
    (∃ x rest why, s.pending = .transaction x :: rest ∧ decode x = .illegal why ∧
      t = State.answer { s with pending := rest } { resp := .illegal, rdata := 0 }) := by
  rcases hp : s.pending with _ | ⟨ev, rest⟩
  · rw [step_of_nil hp] at h
    cases h; exact .inl ⟨rfl, rfl⟩
  · cases ev with
    | reset =>
      rw [step_of_reset hp] at h
      cases h; exact .inr (.inl ⟨rest, rfl, rfl⟩)
    | transaction x =>
      rw [step_of_transaction hp] at h
      cases hd : decode x with
      | instr i =>
        rw [serve_of_instr hd] at h
        exact .inr (.inr (.inl ⟨x, rest, i, rfl, hd, exec_next h⟩))
      | illegal why =>
        rw [serve_of_illegal hd] at h
        cases h; exact .inr (.inr (.inr ⟨x, rest, why, rfl, hd, rfl⟩))

end Sys2Proof.Machine
end

