-- ==== Sys2Proof/Laws/Update.lean ====
section
/-! SUPPORT. Absorbing bytes: the pending buffer as a sequence, and what is kept along it. -/

namespace Sys2Proof.Machine

/-! ### The pending buffer (R22, R23) -/

@[simp] theorem Engine.live_length (e : Engine) : e.live.length = e.bufLen.toNat := by
  have := e.bufLen.isLt
  simp [Engine.live]; omega

theorem bufLen_succ {n : BitVec 6} (h : n ≠ 63) : (n + 1).toNat = n.toNat + 1 := by
  have h1 : n.toNat ≠ 63 := fun h2 => h (BitVec.eq_of_toNat_eq (by simpa using h2))
  have := n.isLt
  rw [BitVec.toNat_add]; simp; omega

/-- R120 below the end of a block: the byte joins the pending buffer. -/
theorem Engine.absorb_live {e : Engine} (h : e.bufLen ≠ 63) (b : Byte) : (e.absorb b).live = e.live ++ [b] := by
  have hl : (e.absorb b).bufLen = e.bufLen + 1 := by rw [Engine.absorb_bufLen, if_neg h]
  have := e.bufLen.isLt
  rw [Engine.live, hl, bufLen_succ h, Engine.absorb_buf, Vector.toList_set, List.take_succ_eq_append_getElem (by simp; omega)]
  simp [Engine.live, List.take_set_of_le]

/-- R120 at the end of a block: the pending bytes with the new one are the block. -/
theorem Engine.block_of_live {e : Engine} (h : e.bufLen = 63) (b : Byte) :
    e.buf.set e.bufLen.toNat b e.bufLen.isLt = blockOf (e.live ++ [b]) := by
  have h63 : e.bufLen.toNat = 63 := by rw [h]; rfl
  apply Vector.ext
  intro j hj
  rw [blockOf_getElem _ _ hj, Vector.getElem_set, List.getD_eq_getElem?_getD]
  split
  · rename_i he
    rw [List.getElem?_append_right (by simp; omega)]
    simp [← he]
  · rw [List.getElem?_append_left (by simp; omega)]
    simp [Engine.live, show j < e.bufLen.toNat by omega, hj]

theorem Engine.absorb_end_live {e : Engine} (h : e.bufLen = 63) (b : Byte) : (e.absorb b).live = [] := by
  simp [Engine.live, Engine.absorb_bufLen, h]

theorem Engine.absorb_end_h {e : Engine} (h : e.bufLen = 63) (b : Byte) :
    (e.absorb b).h = compress e.h (blockOf (e.live ++ [b])) := by
  rw [Engine.absorb_h, if_pos h, Engine.block_of_live h]

/-! ### Sequences of bytes -/

@[simp] theorem Engine.absorbAll_nil (e : Engine) : e.absorbAll [] = e := rfl

@[simp] theorem Engine.absorbAll_cons (e : Engine) (b : Byte) (m : List Byte) :
    e.absorbAll (b :: m) = (e.absorb b).absorbAll m := rfl

theorem Engine.absorbAll_append (e : Engine) (m n : List Byte) :
    e.absorbAll (m ++ n) = (e.absorbAll m).absorbAll n := by simp [Engine.absorbAll]

/-- R122: four bytes in one transaction. -/
theorem absorbed_putw (w : Word) : Instr.absorbed (.putw w) = be32 w := rfl

/-- An instruction that neither starts nor imports a message does to the computation what its bytes do. -/
theorem engineAfter_sameComputation {i : Instr} (h : i.continues = true) (e : Engine) :
    (engineAfter i e).SameComputation (e.absorbAll i.absorbed) := by
  cases i <;> first | exact absurd h (by decide) | exact ⟨rfl, rfl, rfl, rfl⟩ | skip
  case exportMs => simp only [engineAfter]; split <;> exact ⟨rfl, rfl, rfl, rfl⟩

/-! ### Counting and block boundaries -/

/-- R124: the counter goes up by one for each byte. -/
theorem Engine.absorbAll_count (e : Engine) (m : List Byte) :
    (e.absorbAll m).count = e.count + BitVec.ofNat 64 m.length := by
  induction m generalizing e with
  | nil => simp
  | cons b m ih => rw [Engine.absorbAll_cons, ih, Engine.absorb_count]; simp; bv_omega

/-- R122 (a): bytes that complete no block join the pending buffer. -/
theorem Engine.absorbAll_short {e : Engine} {m : List Byte} (h : e.bufLen.toNat + m.length < 64) :
    (e.absorbAll m).h = e.h ∧ (e.absorbAll m).live = e.live ++ m ∧
      (e.absorbAll m).bufLen.toNat = e.bufLen.toNat + m.length := by
  induction m generalizing e with
  | nil => simp
  | cons b m ih =>
    simp at h
    have he : e.bufLen ≠ 63 := by intro h2; rw [h2] at h; simp at h; omega
    have hb : (e.absorb b).bufLen.toNat = e.bufLen.toNat + 1 := by rw [Engine.absorb_bufLen, if_neg he, bufLen_succ he]
    obtain ⟨h1, h2, h3⟩ := ih (e := e.absorb b) (by omega)
    refine ⟨?_, ?_, ?_⟩
    · rw [Engine.absorbAll_cons, h1, Engine.absorb_h, if_neg he]
    · rw [Engine.absorbAll_cons, h2, Engine.absorb_live he]; simp
    · rw [Engine.absorbAll_cons, h3, hb]; simp; omega

/-- R122 (a): at most four bytes that reach the end of a block complete it and start the next one. -/
theorem Engine.absorbAll_long {e : Engine} {m : List Byte} (h : 64 ≤ e.bufLen.toNat + m.length) (hm : m.length ≤ 4) :
    (e.absorbAll m).h = compress e.h (blockOf (e.live ++ m.take (64 - e.bufLen.toNat))) ∧
      (e.absorbAll m).live = m.drop (64 - e.bufLen.toNat) ∧
      (e.absorbAll m).bufLen.toNat = e.bufLen.toNat + m.length - 64 := by
  have hlt := e.bufLen.isLt
  obtain ⟨p, b, q, rfl, hp⟩ : ∃ p b q, m = p ++ b :: q ∧ p.length = 63 - e.bufLen.toNat := by
    refine ⟨m.take (63 - e.bufLen.toNat), m[63 - e.bufLen.toNat]'(by omega), m.drop (64 - e.bufLen.toNat), ?_,
      by simp; omega⟩
    rw [show 64 - e.bufLen.toNat = 63 - e.bufLen.toNat + 1 by omega, ← List.drop_eq_getElem_cons, List.take_append_drop]
  rw [Engine.absorbAll_append, Engine.absorbAll_cons]
  obtain ⟨h1, h2, h3⟩ := Engine.absorbAll_short (e := e) (m := p) (by omega)
  have h63 : (e.absorbAll p).bufLen = 63 := by apply BitVec.eq_of_toNat_eq; rw [h3]; simp; omega
  have hb : ((e.absorbAll p).absorb b).bufLen.toNat = 0 := by rw [Engine.absorb_bufLen, if_pos h63]; rfl
  obtain ⟨g1, g2, g3⟩ := Engine.absorbAll_short (e := (e.absorbAll p).absorb b) (m := q) (by simp at hm; omega)
  have e1 : 64 - e.bufLen.toNat = p.length + 1 := by omega
  refine ⟨?_, ?_, ?_⟩
  · rw [g1, Engine.absorb_end_h h63, h1, h2, e1, List.take_append]
    simp [List.take_of_length_le]
  · rw [g2, Engine.absorb_end_live h63, e1, List.drop_append]
    simp [List.drop_eq_nil_of_le]
  · rw [g3, hb]; simp; omega

/-- An instruction with message bytes absorbs them and does nothing else. -/
theorem engineAfter_put {i : Instr} (h : i.absorbed ≠ []) (e : Engine) : engineAfter i e = e.absorbAll i.absorbed := by
  cases i <;> simp only [Instr.absorbed, engineAfter, ne_eq, not_true_eq_false] at h ⊢
  rfl

/-- R126: "Update has no error". -/
theorem responseOf_put {i : Instr} (h : i.absorbed ≠ []) (e : Engine) : (responseOf i e).resp = .okay := by
  cases i <;> simp only [Instr.absorbed, responseOf, ne_eq, not_true_eq_false] at h ⊢

/-! ### Equal computations -/

theorem Engine.SameComputation.refl (e : Engine) : e.SameComputation e := ⟨rfl, rfl, rfl, rfl⟩

theorem Engine.SameComputation.symm {e f : Engine} (h : e.SameComputation f) : f.SameComputation e :=
  ⟨h.h_eq.symm, h.count_eq.symm, h.bufLen_eq.symm, h.live_eq.symm⟩

theorem Engine.SameComputation.trans {e f g : Engine} (h : e.SameComputation f) (k : f.SameComputation g) :
    e.SameComputation g :=
  ⟨h.h_eq.trans k.h_eq, h.count_eq.trans k.count_eq, h.bufLen_eq.trans k.bufLen_eq, h.live_eq.trans k.live_eq⟩

/-- R22: dead bytes do not enter what an absorbed byte does. -/
theorem Engine.SameComputation.absorb {e f : Engine} (h : e.SameComputation f) (b : Byte) :
    (e.absorb b).SameComputation (f.absorb b) := by
  by_cases he : e.bufLen = 63
  · have hf : f.bufLen = 63 := h.bufLen_eq ▸ he
    refine ⟨?_, by simp [h.count_eq], ?_, ?_⟩
    · rw [Engine.absorb_end_h he, Engine.absorb_end_h hf, h.h_eq, h.live_eq]
    · rw [Engine.absorb_bufLen, Engine.absorb_bufLen, h.bufLen_eq]
    · rw [Engine.absorb_end_live he, Engine.absorb_end_live hf]
  · have hf : f.bufLen ≠ 63 := h.bufLen_eq ▸ he
    refine ⟨?_, by simp [h.count_eq], ?_, ?_⟩
    · rw [Engine.absorb_h, Engine.absorb_h, if_neg he, if_neg hf, h.h_eq]
    · rw [Engine.absorb_bufLen, Engine.absorb_bufLen, h.bufLen_eq]
    · rw [Engine.absorb_live he, Engine.absorb_live hf, h.live_eq]

theorem Engine.SameComputation.absorbAll {e f : Engine} (h : e.SameComputation f) (m : List Byte) :
    (e.absorbAll m).SameComputation (f.absorbAll m) := by
  induction m generalizing e f with
  | nil => exact h
  | cons b m ih => exact ih (h.absorb b)

/-- R131: the digest of a computation. -/
theorem Engine.SameComputation.messageDigest_eq {e f : Engine} (h : e.SameComputation f) :
    e.messageDigest = f.messageDigest := by
  simp [Engine.messageDigest, h.h_eq, h.count_eq, h.bufLen_eq, h.live_eq]

/-! ### Histories (R24) -/

/-- R24 (c), (d): an absorbed byte joins the message. -/
theorem Engine.Holds.absorb {e : Engine} {g : History} (h : e.Holds g) (b : Byte) :
    (e.absorb b).Holds { g with bytes := g.bytes ++ [b] } := by
  have hlen := h.bufLen_eq
  have hsplit := take_append_remainder g.bytes
  have hrl := remainder_length g.bytes
  have hc : e.count + 1 = g.count + BitVec.ofNat 64 (g.bytes ++ [b]).length := by
    rw [h.count_eq, List.length_append, List.length_singleton, BitVec.ofNat_add, BitVec.add_assoc]; rfl
  by_cases he : e.bufLen = 63
  · have h63 : e.bufLen.toNat = 63 := by rw [he]; rfl
    have hm : (g.bytes ++ [b]).length % 64 = 0 := by simp; omega
    refine ⟨h.boundary, by simpa using hc, ?_, ?_, ?_⟩
    · rw [hm, Engine.absorb_bufLen, if_pos he]; rfl
    · rw [Engine.absorb_end_live he]
      exact (List.eq_nil_of_length_eq_zero (by rw [remainder_length]; exact hm)).symm
    · show _ = hashBlocks g.acc (g.bytes ++ [b])
      rw [Engine.absorb_end_h he, h.live_eq, h.h_eq, ← hashBlocks_whole g.acc g.bytes]
      conv_rhs => rw [← hsplit, List.append_assoc]
      rw [hashBlocks_append (by simp; omega)]
      have := hashBlocks_one (p := remainder g.bytes ++ [b]) (m := []) (by simp; omega) (by simp)
        (hashBlocks g.acc (g.bytes.take (64 * (g.bytes.length / 64))))
      rw [List.append_nil] at this
      exact this.symm
  · have h63 : e.bufLen.toNat ≠ 63 := fun h2 => he (BitVec.eq_of_toNat_eq (by simpa using h2))
    have hd : (g.bytes ++ [b]).length / 64 = g.bytes.length / 64 := by simp; omega
    refine ⟨h.boundary, by simpa using hc, ?_, ?_, ?_⟩
    · rw [Engine.absorb_bufLen, if_neg he, bufLen_succ he]; simp; omega
    · rw [Engine.absorb_live he, h.live_eq]
      show _ = remainder (g.bytes ++ [b])
      rw [remainder, remainder, hd, List.drop_append_of_le_length (by omega)]
    · rw [Engine.absorb_h, if_neg he, h.h_eq]
      show _ = hashBlocks g.acc (g.bytes ++ [b])
      rw [← hashBlocks_whole g.acc (g.bytes ++ [b]), ← hashBlocks_whole g.acc g.bytes, hd,
        List.take_append_of_le_length (by omega)]

theorem Engine.Holds.absorbAll {e : Engine} {g : History} (h : e.Holds g) (m : List Byte) :
    (e.absorbAll m).Holds { g with bytes := g.bytes ++ m } := by
  induction m generalizing e g with
  | nil => simpa using h
  | cons b m ih => simpa using ih (h.absorb b)

/-- An engine that holds the same computation holds the same message. -/
theorem Engine.Holds.congr {e f : Engine} {g : History} (h : e.Holds g) (k : e.SameComputation f) : f.Holds g :=
  ⟨h.boundary, k.count_eq ▸ h.count_eq, k.bufLen_eq ▸ h.bufLen_eq, k.live_eq ▸ h.live_eq, k.h_eq ▸ h.h_eq⟩

end Sys2Proof.Machine
end

