-- ==== Sys2Proof/Laws/Host.lean ====
section
/-! SUPPORT. The host's operations, each said once: what it leaves in the engine, which responses it gets and what it gives. -/

namespace Sys2Proof.Machine

/-- R73: decoding an encoded instruction gives it back. -/
theorem decode_encode (i : Instr) : decode (encode i) = .instr i := by
  cases i with
  | nop => exact Laws.Encoding.nop.2.2
  | init => exact Laws.Encoding.init.2.2
  | load => exact Laws.Encoding.load.2.2
  | exportMs => exact Laws.Encoding.exportMs.2.2
  | final => exact Laws.Encoding.final.2.2
  | msclr => exact Laws.Encoding.msclr.2.2
  | putb b => exact (Laws.Encoding.putb b).2.2
  | putw w => exact (Laws.Encoding.putw w).2.2
  | wmsin i w => exact (Laws.Encoding.wmsin i w).2.2
  | wmscntl w => exact (Laws.Encoding.wmscntl w).2.2
  | wmscnth w => exact (Laws.Encoding.wmscnth w).2.2
  | rstatus => exact Laws.Encoding.rstatus.2.2
  | rcntl => exact Laws.Encoding.rcntl.2.2
  | rcnth => exact Laws.Encoding.rcnth.2.2
  | rdigest i => exact (Laws.Encoding.rdigest i).2.2
  | rmsout i => exact (Laws.Encoding.rmsout i).2.2
  | rmsocntl => exact Laws.Encoding.rmsocntl.2.2
  | rmsocnth => exact Laws.Encoding.rmsocnth.2.2

/-- One transaction: the state after it, and its response. -/
theorem issue_eq (i : Instr) (s : State) : issue i s =
    some (State.answer { s with engine := engineAfter i s.engine } (responseOf i s.engine), responseOf i s.engine) := by
  simp [issue, serve_of_instr (decode_encode i), exec_eq, State.answer]

theorem execAll_cons (i : Instr) (is : List Instr) (s : State) : execAll (i :: is) s =
    execAll is (State.answer { s with engine := engineAfter i s.engine } (responseOf i s.engine)) := by
  simp [execAll, exec_eq]

/-- Instructions in order: the last response and the pending events do not matter to the engine. -/
theorem execAll_eq (is : List Instr) (s : State) : ∃ rs : List Response, rs.length = is.length ∧
    execAll is s = .next { s with
      engine := is.foldl (fun e i => engineAfter i e) s.engine, responses := s.responses ++ rs } := by
  induction is generalizing s with
  | nil => exact ⟨[], rfl, by simp [execAll]⟩
  | cons i is ih =>
    obtain ⟨rs, hl, h⟩ := ih (State.answer { s with engine := engineAfter i s.engine } (responseOf i s.engine))
    exact ⟨responseOf i s.engine :: rs, by simp [hl], by rw [execAll_cons, h]; simp [State.answer]⟩

/-- R62: reads leave the engine alone; the host gets their values in order. -/
theorem issueReads_eq {is : List Instr} {s : State} (h : ∀ i ∈ is, engineAfter i s.engine = s.engine) :
    issueReads is s = some ({ s with responses := s.responses ++ is.map (responseOf · s.engine) },
      is.map fun i => (responseOf i s.engine).rdata) := by
  induction is generalizing s with
  | nil => simp [issueReads]
  | cons i is ih =>
    have hi := h i (by simp)
    have := ih (s := State.answer s (responseOf i s.engine)) (fun j hj => h j (by simp [hj]))
    simp only [State.answer] at this
    simp [issueReads, issueRead, issue_eq, hi, State.answer, this]

/-- R80 `UPDATE`: the bytes absorbed in order, one `OKAY` each. -/
theorem hostUpdate_eq (m : List Byte) (s : State) : hostUpdate m s = some { s with
    engine := s.engine.absorbAll m,
    responses := s.responses ++ List.replicate m.length { resp := .okay, rdata := 0 } } := by
  induction m generalizing s with
  | nil => simp [hostUpdate]
  | cons b m ih =>
    simp only [hostUpdate, issue_eq, ih]
    simp [State.answer, engineAfter, responseOf, List.replicate_succ]

/-- R80 `NEW`. -/
theorem hostNew_eq (s : State) :
    hostNew s = some (State.answer { s with engine := s.engine.fresh } { resp := .okay, rdata := 0 }) := by
  simp [hostNew, issue_eq, engineAfter, responseOf]

theorem bytesOfWordList_toList (v : Words8) : bytesOfWordList v.toList = bytesOfWords v := rfl

/-- The eight words of a vector, read by index. -/
theorem map_getElem_finRange (v : Words8) : ((List.finRange 8).map fun i => v[i]) = v.toList := by
  apply List.ext_getElem
  · simp
  · intro j h1 h2; simp

/-- R80 `DIGEST`: the digest latched and read back as 32 bytes. -/
theorem hostDigest_eq (s : State) : hostDigest s = some ({ s with
    engine := s.engine.latch,
    responses := s.responses ++ { resp := .okay, rdata := 0 } ::
      (List.finRange 8).map fun i => { resp := .okay, rdata := s.engine.messageDigest[i] } },
    bytesOfWords s.engine.messageDigest) := by
  have h : ∀ i ∈ digestReads, engineAfter i s.engine.latch = s.engine.latch := by
    intro i hi
    obtain ⟨k, -, rfl⟩ := List.mem_map.mp hi
    rfl
  have hr := issueReads_eq (is := digestReads)
    (s := State.answer { s with engine := s.engine.latch } { resp := .okay, rdata := 0 }) h
  have e1 : (digestReads.map fun i => (responseOf i s.engine.latch).rdata) = s.engine.messageDigest.toList := by
    rw [digestReads, List.map_map]; exact map_getElem_finRange _
  have e2 : (digestReads.map fun i => responseOf i s.engine.latch) =
      (List.finRange 8).map fun i => { resp := .okay, rdata := s.engine.messageDigest[i] } := by
    rw [digestReads, List.map_map]; rfl
  simp only [State.answer, e1, e2] at hr
  simp only [hostDigest, issue_eq, engineAfter, responseOf, State.answer, hr, Option.map_some, bytesOfWordList_toList,
    List.append_assoc, List.cons_append, List.nil_append]

end Sys2Proof.Machine
end

