-- ==== Sys2Proof/Machine/Assembler.lean ====
section
/-! DEFINITION. The text syntax of spec/30_encoding.md R79, one transaction per line, with the `RAW` lines of
spec/95_test_vectors.md section 4. Text is a list of characters. -/

namespace Sys2Proof.Machine

/-- A line of a program: its transaction, and the response that `-> resp` or `-> resp, rdata` states. -/
structure AsmLine where
  transaction : Transaction
  resp : Option RespCode
  rdata : Option Word
deriving DecidableEq, Repr

/-- R79: "A comment runs from `;` to the end of the line". A `;` inside single quotes is a character (log entry 7). -/
def stripComment : List Char → List Char
  | '\'' :: c :: '\'' :: rest => '\'' :: c :: '\'' :: stripComment rest
  | ';' :: _ => []
  | c :: rest => c :: stripComment rest
  | [] => []

/-- A text without the blanks at its start. -/
def trimStart (cs : List Char) : List Char := cs.dropWhile fun c => c = ' ' || c = '\t'

/-- A text without the blanks at its ends. -/
def trim (cs : List Char) : List Char := (trimStart (trimStart cs).reverse).reverse

/-- The text before `->`, and the text after it. -/
def splitArrow : List Char → List Char × Option (List Char)
  | '\'' :: c :: '\'' :: rest => let p := splitArrow rest; ('\'' :: c :: '\'' :: p.1, p.2)
  | '-' :: '>' :: rest => ([], some rest)
  | c :: rest => let p := splitArrow rest; (c :: p.1, p.2)
  | [] => ([], none)

/-- The parts of a text between commas, outside single quotes. -/
def splitCommas : List Char → List (List Char)
  | [] => [[]]
  | '\'' :: c :: '\'' :: rest =>
    match splitCommas rest with
    | [] => [['\'', c, '\'']]
    | p :: ps => ('\'' :: c :: '\'' :: p) :: ps
  | ',' :: rest => [] :: splitCommas rest
  | c :: rest =>
    match splitCommas rest with
    | [] => [[c]]
    | p :: ps => (c :: p) :: ps

/-- The value of a decimal digit. -/
def decimalDigit (c : Char) : Option Nat := if '0' ≤ c && c ≤ '9' then some (c.toNat - 48) else none

/-- The value of a hexadecimal digit, in either case. -/
def hexadecimalDigit (c : Char) : Option Nat :=
  if 'a' ≤ c && c ≤ 'f' then some (c.toNat - 87)
  else if 'A' ≤ c && c ≤ 'F' then some (c.toNat - 55)
  else decimalDigit c

/-- A number from its digits, most significant first; at least one digit. -/
def numberFrom (base : Nat) (digit : Char → Option Nat) (acc : Nat) : List Char → Option Nat
  | [] => none
  | [c] => (digit c).map fun d => acc * base + d
  | c :: cs =>
    match digit c with
    | some d => numberFrom base digit (acc * base + d) cs
    | none => none

/-- R79: an unsigned literal, "hexadecimal with `0x` or decimal; a character in single quotes stands for its ASCII code". -/
def literal (cs : List Char) : Option Nat :=
  match cs with
  | ['\'', c, '\''] => if c.toNat < 128 then some c.toNat else none
  | '0' :: 'x' :: rest => numberFrom 16 hexadecimalDigit 0 rest
  | _ => numberFrom 10 decimalDigit 0 cs

/-- R79: "`i` is a decimal digit 0 to 7". -/
def indexOperand (cs : List Char) : Option (Fin 8) :=
  match cs with
  | [c] =>
    match decimalDigit c with
    | some n => if h : n < 8 then some ⟨n, h⟩ else none
    | none => none
  | _ => none

/-- An operand of `n` bits: a literal that fits them. -/
def immOperand (n : Nat) (cs : List Char) : Option (BitVec n) :=
  match literal cs with
  | some v => if v < 2 ^ n then some (BitVec.ofNat n v) else none
  | none => none

/-- The text of a mnemonic (R74). -/
def mnemonicText : Mnemonic → List Char
  | .nop => ['N', 'O', 'P']
  | .init => ['I', 'N', 'I', 'T']
  | .load => ['L', 'O', 'A', 'D']
  | .exportMs => ['E', 'X', 'P', 'O', 'R', 'T']
  | .final => ['F', 'I', 'N', 'A', 'L']
  | .msclr => ['M', 'S', 'C', 'L', 'R']
  | .putb => ['P', 'U', 'T', 'B']
  | .putw => ['P', 'U', 'T', 'W']
  | .wmsin => ['W', 'M', 'S', 'I', 'N']
  | .wmscntl => ['W', 'M', 'S', 'C', 'N', 'T', 'L']
  | .wmscnth => ['W', 'M', 'S', 'C', 'N', 'T', 'H']
  | .rstatus => ['R', 'S', 'T', 'A', 'T', 'U', 'S']
  | .rcntl => ['R', 'C', 'N', 'T', 'L']
  | .rcnth => ['R', 'C', 'N', 'T', 'H']
  | .rdigest => ['R', 'D', 'I', 'G', 'E', 'S', 'T']
  | .rmsout => ['R', 'M', 'S', 'O', 'U', 'T']
  | .rmsocntl => ['R', 'M', 'S', 'O', 'C', 'N', 'T', 'L']
  | .rmsocnth => ['R', 'M', 'S', 'O', 'C', 'N', 'T', 'H']

/-- The mnemonic with a text. -/
def mnemonicOf (cs : List Char) : Option Mnemonic := (opcodeTable.map (·.mnemonic)).find? fun m => mnemonicText m = cs

/-- The instruction of a mnemonic and its operands (R74, R79). -/
def instrOf (m : Mnemonic) (ops : List (List Char)) : Option Instr :=
  match m, ops with
  | .nop, [] => some .nop
  | .init, [] => some .init
  | .load, [] => some .load
  | .exportMs, [] => some .exportMs
  | .final, [] => some .final
  | .msclr, [] => some .msclr
  | .putb, [b] => (immOperand 8 b).map .putb
  | .putw, [w] => (immOperand 32 w).map .putw
  | .wmsin, [i, w] =>
    match indexOperand i, immOperand 32 w with
    | some i, some w => some (.wmsin i w)
    | _, _ => none
  | .wmscntl, [w] => (immOperand 32 w).map .wmscntl
  | .wmscnth, [w] => (immOperand 32 w).map .wmscnth
  | .rstatus, [] => some .rstatus
  | .rcntl, [] => some .rcntl
  | .rcnth, [] => some .rcnth
  | .rdigest, [i] => (indexOperand i).map .rdigest
  | .rmsout, [i] => (indexOperand i).map .rmsout
  | .rmsocntl, [] => some .rmsocntl
  | .rmsocnth, [] => some .rmsocnth
  | _, _ => none

/-- A `RAW we, addr, wdata` line: any transaction word. -/
def rawOf (ops : List (List Char)) : Option Transaction :=
  match ops with
  | [we, addr, wdata] =>
    match immOperand 1 we, immOperand 8 addr, immOperand 32 wdata with
    | some we, some addr, some wdata => some { we := we = 1, addr := addr, wdata := wdata }
    | _, _, _ => none
  | _ => none

/-- The transaction of the text before `->`: a mnemonic and operands separated by commas. -/
def transactionOf (cs : List Char) : Option Transaction :=
  let word := (trim cs).takeWhile fun c => c ≠ ' ' && c ≠ '\t'
  let rest := trim ((trim cs).dropWhile fun c => c ≠ ' ' && c ≠ '\t')
  let ops := if rest = [] then [] else (splitCommas rest).map trim
  if word = ['R', 'A', 'W'] then rawOf ops
  else
    match mnemonicOf word with
    | some m => (instrOf m ops).map encode
    | none => none

/-- The name of a response code (R160). -/
def respOf (cs : List Char) : Option RespCode :=
  if cs = ['O', 'K', 'A', 'Y'] then some .okay
  else if cs = ['I', 'N', 'V', 'A', 'L', 'I', 'D', '_', 'S', 'T', 'A', 'T', 'E'] then some .invalidState
  else if cs = ['S', 'T', 'A', 'T', 'E', '_', 'B', 'O', 'U', 'N', 'D', 'A', 'R', 'Y'] then some .stateBoundary
  else if cs = ['I', 'L', 'L', 'E', 'G', 'A', 'L'] then some .illegal
  else none

/-- One line of a program (R79), with nothing where the text is no such line. -/
def assembleLine (line : List Char) : Option AsmLine :=
  let p := splitArrow (stripComment line)
  match transactionOf p.1, p.2 with
  | none, _ => none
  | some t, none => some { transaction := t, resp := none, rdata := none }
  | some t, some answer =>
    match (splitCommas answer).map trim with
    | [r] => (respOf r).map fun r => { transaction := t, resp := some r, rdata := none }
    | [r, v] =>
      match respOf r, immOperand 32 v with
      | some r, some v => some { transaction := t, resp := some r, rdata := some v }
      | _, _ => none
    | _ => none

end Sys2Proof.Machine
end

