-- ==== Sys2Proof/Tests/Slice0.lean ====
section
/-! SUPPORT. Tests. Every expected value is taken from spec/95_test_vectors.md or from the rule named, none from the model. The
second half holds a witness for the hypotheses of every statement that has some. -/

namespace Sys2Proof.Tests

open Sys2Proof Sys2Proof.Machine

/-! ### Helpers -/

/-- The state after an instruction. -/
def run (i : Instr) (s : State) : State :=
  match exec i s with
  | .next t => t
  | _ => s

/-- The engine after an instruction. -/
def after (i : Instr) (e : Engine) : Engine := (run i { State.reset with engine := e }).engine

/-- The response to an instruction. -/
def answer (i : Instr) (e : Engine) : Option Response :=
  (run i { State.reset with engine := e }).responses.getLast?

/-- An engine that holds `n` bytes `a` since reset, with `n` below 64. -/
def holdsA (n : BitVec 6) : Engine :=
  { Engine.reset with buf := blockOf (List.replicate n.toNat 0x61), bufLen := n, count := n.setWidth 64 }

/-- The midstate of 64 bytes `a` (section 2.3). -/
def midA : Words8 :=
  #v[0xdf5bb81c, 0xe81e0626, 0xfb45a894, 0x4fd40f31, 0xb25e6816, 0xd6d499c1, 0xab904929, 0x00635e66]

/-- An engine with a staged midstate: all ten words, the blob 1 to 8 and a count (M6 to M8). -/
def stagedWith (mask : BitVec 10) (count : Count) : Engine :=
  { Engine.reset with msin := #v[1, 2, 3, 4, 5, 6, 7, 8], msinCnt := count, msinMask := mask }

/-- A state with an engine, one transaction word issued and not yet served. -/
def issued (e : Engine) (w : TWord) : State :=
  { State.reset with engine := e, pending := [.transaction (Transaction.ofT w)] }

/-- The state after a step. -/
def stepped (s : State) : State :=
  match step s with
  | .next t => t
  | _ => s

/-! ### Decoding: the words of section 2.1 -/

theorem test_decode_commands :
    decode (.ofT 0x10000000000) = .instr .nop ∧ decode (.ofT 0x10000000001) = .instr .init ∧
    decode (.ofT 0x10000000002) = .instr .load ∧ decode (.ofT 0x10000000003) = .instr .exportMs ∧
    decode (.ofT 0x10000000004) = .instr .final ∧ decode (.ofT 0x10000000005) = .instr .msclr := by decide

theorem test_decode_data_writes :
    decode (.ofT 0x11000000061) = .instr (.putb 0x61) ∧ decode (.ofT 0x110ffffff61) = .instr (.putb 0x61) ∧
    decode (.ofT 0x11461626364) = .instr (.putw 0x61626364) := by decide

theorem test_decode_staging :
    decode (.ofT 0x180df5bb81c) = .instr (.wmsin 0 0xdf5bb81c) ∧ decode (.ofT 0x19c00635e66) = .instr (.wmsin 7 0x00635e66) ∧
    decode (.ofT 0x1a000000040) = .instr (.wmscntl 0x40) ∧ decode (.ofT 0x1a400000000) = .instr (.wmscnth 0) := by decide

theorem test_decode_reads :
    decode (.ofT 0x00400000000) = .instr .rstatus ∧ decode (.ofT 0x004deadbeef) = .instr .rstatus ∧
    decode (.ofT 0x00800000000) = .instr .rcntl ∧ decode (.ofT 0x00c00000000) = .instr .rcnth ∧
    decode (.ofT 0x02000000000) = .instr (.rdigest 0) ∧ decode (.ofT 0x03c00000000) = .instr (.rdigest 7) ∧
    decode (.ofT 0x04000000000) = .instr (.rmsout 0) ∧ decode (.ofT 0x05c00000000) = .instr (.rmsout 7) ∧
    decode (.ofT 0x06000000000) = .instr .rmsocntl ∧ decode (.ofT 0x06400000000) = .instr .rmsocnth := by decide

/-- The same words the other way round, as the assembler of R79 writes them. -/
theorem test_encode_words :
    (encode .final).toT = 0x10000000004 ∧ (encode (.putb 0x61)).toT = 0x11000000061 ∧
    (encode (.putw 0x61626364)).toT = 0x11461626364 ∧ (encode (.wmsin 7 0x00635e66)).toT = 0x19c00635e66 ∧
    (encode (.wmscntl 0x40)).toT = 0x1a000000040 ∧ (encode (.wmscnth 0)).toT = 0x1a400000000 ∧
    (encode .rstatus).toT = 0x00400000000 ∧ (encode (.rdigest 7)).toT = 0x03c00000000 ∧
    (encode (.rmsout 7)).toT = 0x05c00000000 ∧ (encode .rmsocnth).toT = 0x06400000000 := by decide

/-- The second table of section 2.1: no word of it is an instruction. -/
theorem test_decode_illegal_words : ([0x10400000000, 0x00000000000, 0x01000000000, 0x01400000000, 0x120deadbeef,
    0x14000000000, 0x08000000000, 0x0a000000000, 0x11800000000, 0x01c00000000, 0x06800000000, 0x17c00000000, 0x1a800000000,
    0x0fc00000000, 0x11100000061, 0x00500000000, 0x10300000004, 0x10000000006, 0x10080000001, 0x100ffffffff] : List TWord).all (fun w =>
      (decode (.ofT w)).toOption = none ∧ tableLookup w = none ∧ decodeTableWord 48 w.toNat = none) = true := by decide +kernel

theorem test_decodeTableWord :
    decodeTableWord 48 0x11461626364 = some (.putw 0x61626364) ∧ decodeTableWord 41 0x00400000000 = some .rstatus ∧
    decodeTableWord 48 0x30000000000 = none := by decide

/-! ### WellFormed: each check of R76 refuses an ill-formed word -/

theorem smoke_misaligned : (Transaction.ofT 0x10300000004).aligned = false ∧
    (Transaction.ofT 0x10300000004).wellFormed = false := by decide

theorem smoke_write_to_read_only : Addr.isReadOnly 0x04 = true ∧ (Transaction.ofT 0x10400000000).wellFormed = false ∧
    (Transaction.ofT 0x120deadbeef).wellFormed = false ∧ (Transaction.ofT 0x14000000000).wellFormed = false := by decide

theorem smoke_read_of_write_only : Addr.isWriteOnly 0x10 = true ∧ (Transaction.ofT 0x01000000000).wellFormed = false ∧
    (Transaction.ofT 0x00000000000).wellFormed = false ∧ (Transaction.ofT 0x08000000000).wellFormed = false := by decide

theorem smoke_reserved_offset : Addr.isReserved 0xFC = true ∧ (Transaction.ofT 0x0fc00000000).wellFormed = false ∧
    (Transaction.ofT 0x11800000000).wellFormed = false := by decide

theorem smoke_reserved_command : (Transaction.ofT 0x10000000006).reservedCommand = true ∧
    (Transaction.ofT 0x10000000006).wellFormed = false ∧ (Transaction.ofT 0x10080000001).wellFormed = false ∧
    (Transaction.ofT 0x10000000005).wellFormed = true := by decide

theorem smoke_not_canonical : (Transaction.ofT 0x110ffffff61).isCanonical = false ∧
    (Transaction.ofT 0x004deadbeef).isCanonical = false ∧ (Transaction.ofT 0x110ffffff61).wellFormed = true ∧
    (Transaction.ofT 0x11000000061).isCanonical = true := by decide

/-! ### Responses (R71, R160) -/

theorem test_response_words :
    Response.toP { resp := .okay, rdata := 0x00080301 } = 0x000080301 ∧
    Response.toP { resp := .invalidState, rdata := 0 } = 0x100000000 ∧
    Response.toP { resp := .stateBoundary, rdata := 0 } = 0x200000000 ∧
    Response.toP { resp := .illegal, rdata := 0 } = 0x300000000 := by decide

/-! ### Reset and control (sections 2.2 and 2.8) -/

theorem test_reset_reads : (∀ i ∈ ([.rstatus, .rcntl, .rcnth, .rdigest 7, .rmsout 0, .rmsocntl, .rmsocnth] : List Instr),
    answer i Engine.reset = some { resp := .okay, rdata := 0 }) ∧ Engine.reset.h = iv := by decide

theorem test_nop : after .nop (stagedWith 0x101 5) = stagedWith 0x101 5 ∧
    answer .nop Engine.reset = some { resp := .okay, rdata := 0 } := by decide

/-- Section 2.2: `INIT` keeps `MSOUT_VALID` and `MSIN_MASK`, clears `BUFLEN` and `DIGEST_VALID`. -/
theorem test_init : (after .init { holdsA 1 with
      h := midA, count := 65, digestValid := true, msoutValid := true, msinMask := 8 }).status = 0x00080200 ∧
    (after .init { holdsA 1 with h := midA }).h = iv ∧ (after .init (holdsA 1)).buf[0] = 0x61 := by decide

theorem test_rstatus : answer .rstatus { Engine.reset with
    bufLen := 1, count := 65, digestValid := true, msoutValid := true, msinMask := 8 } =
    some { resp := .okay, rdata := 0x00080301 } := by decide

/-- Section 2.2: the two halves of the counter around a carry. -/
theorem test_rcntl_rcnth :
    answer .rcntl { Engine.reset with count := 0xFFFFFFFF } = some { resp := .okay, rdata := 0xFFFFFFFF } ∧
    answer .rcnth { Engine.reset with count := 0xFFFFFFFF } = some { resp := .okay, rdata := 0 } ∧
    answer .rcntl { Engine.reset with count := 0x100000000 } = some { resp := .okay, rdata := 0 } ∧
    answer .rcnth { Engine.reset with count := 0x100000000 } = some { resp := .okay, rdata := 1 } := by decide

/-! ### Compression (section 2.3, R100 to R113) -/

theorem test_sigmas :
    bigSigma0 0x12345678 = 0x66146474 ∧ bigSigma1 0x12345678 = 0x3561abda ∧
    smallSigma0 0x12345678 = 0xe7fce6ee ∧ smallSigma1 0x12345678 = 0xa1f78649 ∧
    bigSigma0 0x80000000 = 0x20040200 ∧ bigSigma1 0x80000000 = 0x02100040 ∧
    smallSigma0 0xffffffff = 0x1fffffff ∧ smallSigma1 0xffffffff = 0x003fffff := by decide

theorem test_ch_maj : ch 0x12345678 0xdeadbeef 0xcafebabe = 0xdaeebeee ∧
    maj 0x12345678 0xdeadbeef 0xcafebabe = 0xdabcbefe ∧ rotr 0x80000001 31 = 0x00000003 := by decide

/-- The first 64 primes. -/
def primes : List Nat :=
  [2, 3, 5, 7, 11, 13, 17, 19, 23, 29, 31, 37, 41, 43, 47, 53, 59, 61, 67, 71, 73, 79, 83, 89, 97, 101, 103, 107, 109, 113, 127, 131] ++
  [137, 139, 149, 151, 157, 163, 167, 173, 179, 181, 191, 193, 197, 199, 211, 223, 227, 229, 233, 239, 241, 251, 257, 263, 269, 271,
   277, 281, 283, 293, 307, 311]

/-- R107: the constants are "the first 32 bits of the fractional parts of the cube roots" of the first 64 primes. -/
theorem test_round_constants : roundConstants.length = 64 ∧ ∀ kp ∈ roundConstants.zip primes,
    ∃ n ∈ List.range 7, let c := n * 2 ^ 32 + kp.1.toNat; c ^ 3 ≤ kp.2 * 2 ^ 96 ∧ kp.2 * 2 ^ 96 < (c + 1) ^ 3 := by
  decide +kernel

/-- R108: the initial words, the same of the square roots of the first eight. -/
theorem test_initial_words : ∀ kp ∈ iv.toList.zip primes,
    ∃ n ∈ List.range 5, let c := n * 2 ^ 32 + kp.1.toNat; c ^ 2 ≤ kp.2 * 2 ^ 64 ∧ kp.2 * 2 ^ 64 < (c + 1) ^ 2 := by
  decide +kernel

/-- Section 3: the block of `abc`, two of its schedule words, and its compression. -/
theorem test_compress_abc :
    (schedule (blockOf ([0x61, 0x62, 0x63, 0x80] ++ List.replicate 59 0 ++ [0x18])))[17]? = some 0x000f0000 ∧
    (schedule (blockOf ([0x61, 0x62, 0x63, 0x80] ++ List.replicate 59 0 ++ [0x18])))[63]? = some 0x12b1edeb ∧
    compress iv (blockOf ([0x61, 0x62, 0x63, 0x80] ++ List.replicate 59 0 ++ [0x18])) =
      #v[0xba7816bf, 0x8f01cfea, 0x414140de, 0x5dae2223, 0xb00361a3, 0x96177a9c, 0xb410ff61, 0xf20015ad] := by
  decide +kernel

/-! ### Update (section 2.4) -/

/-- U1. -/
theorem test_putb : (after (.putb 0x61) Engine.reset).buf[0] = 0x61 ∧ (after (.putb 0x61) Engine.reset).count = 1 ∧
    (after (.putb 0x61) Engine.reset).status = 1 ∧ (after (.putb 0x61) Engine.reset).h = iv := by decide

/-- U3: the 64th byte completes the block; U8: the counter wraps. -/
theorem test_putb_boundary : (after (.putb 0x61) { holdsA 63 with digestValid := true }).h = midA ∧
    (after (.putb 0x61) { holdsA 63 with digestValid := true }).status = 0 ∧
    (after (.putb 0x61) (holdsA 63)).count = 64 ∧
    (after (.putb 0) { holdsA 63 with count := 0xFFFFFFFFFFFFFFFF }).count = 0 := by decide +kernel

/-- U4. -/
theorem test_putw : (after (.putw 0x61626364) Engine.reset).live = [0x61, 0x62, 0x63, 0x64] ∧
    (after (.putw 0x61626364) Engine.reset).count = 4 := by decide

/-- U5: the word straddles the boundary. -/
theorem test_putw_straddles : (after (.putw 0x61616262) (holdsA 62)).h = midA ∧
    (after (.putw 0x61616262) (holdsA 62)).live = [0x62, 0x62] ∧ (after (.putw 0x61616262) (holdsA 62)).count = 66 := by
  decide +kernel

/-! ### Finalize (section 2.5) -/

/-- V1. -/
theorem test_final_empty : (after .final Engine.reset).digest =
      #v[0xe3b0c442, 0x98fc1c14, 0x9afbf4c8, 0x996fb924, 0x27ae41e4, 0x649b934c, 0xa495991b, 0x7852b855] ∧
    (after .final Engine.reset).h = iv ∧ (after .final Engine.reset).status = 0x100 := by decide +kernel

/-- The row n = 56 of the table: two blocks. -/
theorem test_final_two_blocks : (after .final (holdsA 56)).digest =
    #v[0xb35439a4, 0xac6f0948, 0xb6d6f9e3, 0xc6af0f5f, 0x590ce20f, 0x1bde7090, 0xef797068, 0x6ec6738a] := by
  decide +kernel

theorem test_pad : padBytes 3 3 [0x61, 0x62, 0x63] = [[0x61, 0x62, 0x63, 0x80] ++ List.replicate 59 0 ++ [0x18]] ∧
    padBytes 55 55 (List.replicate 55 0x61) = [List.replicate 55 0x61 ++ [0x80, 0, 0, 0, 0, 0, 0, 1, 0xb8]] ∧
    padBytes 63 63 (List.replicate 63 0x61) =
      [List.replicate 63 0x61 ++ [0x80], List.replicate 62 0 ++ [1, 0xf8]] ∧
    padBytes 0 0x2000000000000000 [] = [0x80 :: List.replicate 63 0] ∧
    padBytes 0 0x0000000100000040 [] = [0x80 :: List.replicate 58 0 ++ [8, 0, 0, 2, 0]] := by decide +kernel

theorem test_rdigest : answer (.rdigest 2) { Engine.reset with digest := #v[10, 11, 12, 13, 14, 15, 16, 17] } =
    some { resp := .okay, rdata := 12 } := by decide

/-! ### Midstate (section 2.6) -/

/-- M1, M2: legal at reset, and after 64 bytes. -/
theorem test_export : (after .exportMs { Engine.reset with h := midA, count := 64 }).msout = midA ∧
    (after .exportMs { Engine.reset with h := midA, count := 64 }).msoutCnt = 0x40 ∧
    (after .exportMs Engine.reset).status = 0x200 ∧ (after .exportMs Engine.reset).msout = iv := by decide

/-- M3. -/
theorem test_export_off_boundary : answer .exportMs (holdsA 1) = some { resp := .stateBoundary, rdata := 0 } ∧
    after .exportMs (holdsA 1) = holdsA 1 := by decide

theorem test_snapshot_reads : answer (.rmsout 7) { Engine.reset with msout := midA } = some { resp := .okay, rdata := 0x00635e66 } ∧
    answer .rmsocntl { Engine.reset with msoutCnt := 0x0000000100000040 } = some { resp := .okay, rdata := 0x40 } ∧
    answer .rmsocnth { Engine.reset with msoutCnt := 0x0000000100000040 } = some { resp := .okay, rdata := 1 } := by decide

/-- M9. -/
theorem test_msclr : after .msclr (stagedWith 0x101 5) = stagedWith 0 5 := by decide

/-- M10. -/
theorem test_wmsin : (after (.wmsin 3 0x9abcdef0) (after (.wmsin 3 0x12345678) Engine.reset)).status = 0x00080000 ∧
    (after (.wmsin 3 0x9abcdef0) (after (.wmsin 3 0x12345678) Engine.reset)).msin =
      #v[0, 0, 0, 0x9abcdef0, 0, 0, 0, 0] := by decide

/-- R31: a staging write of one half leaves the other half; M6, M7: the mask bits 9 and 8. -/
theorem test_wmscntl_wmscnth :
    (after (.wmscntl 0x40) { Engine.reset with msinCnt := 0x0000000700000005 }).msinCnt = 0x0000000700000040 ∧
    (after (.wmscnth 9) { Engine.reset with msinCnt := 0x0000000700000005 }).msinCnt = 0x0000000900000005 ∧
    (after (.wmscnth 0) (stagedWith 0x0FF 0)).status = 0x02ff0000 ∧
    (after (.wmscntl 0x41) (stagedWith 0x2FF 0)).status = 0x03ff0000 := by decide

/-- M5 to M7. -/
theorem test_load_rejected : answer .load Engine.reset = some { resp := .invalidState, rdata := 0 } ∧
    answer .load (stagedWith 0x2FF 0) = some { resp := .invalidState, rdata := 0 } ∧
    answer .load (stagedWith 0x3FF 0x41) = some { resp := .invalidState, rdata := 0 } ∧
    after .load (stagedWith 0x3FF 0x41) = stagedWith 0x3FF 0x41 := by decide

/-- M8. -/
theorem test_load : (after .load (stagedWith 0x3FF 0x40)).h = #v[1, 2, 3, 4, 5, 6, 7, 8] ∧
    (after .load (stagedWith 0x3FF 0x40)).count = 0x40 ∧ (after .load (stagedWith 0x3FF 0x40)).status = 0 := by decide

/-! ### Text, hexadecimal and steps -/

/-- R79: lines as spec/95_test_vectors.md writes them. -/
theorem test_assembler :
    assembleLine "PUTB 'a' -> OKAY".toList =
      some { transaction := .ofT 0x11000000061, resp := some .okay, rdata := none } ∧
    assembleLine "  RSTATUS  -> OKAY, 0x00080301      ; BUFLEN 1".toList =
      some { transaction := .ofT 0x00400000000, resp := some .okay, rdata := some 0x00080301 } ∧
    assembleLine "WMSIN 7, 0x00635e66".toList =
      some { transaction := .ofT 0x19c00635e66, resp := none, rdata := none } ∧
    assembleLine "RAW 1, 0x04, 0 -> ILLEGAL, 0".toList =
      some { transaction := .ofT 0x10400000000, resp := some .illegal, rdata := some 0 } ∧
    assembleLine "WMSIN 8, 0".toList = none := by decide +kernel

/-- R135 and V2's first bytes. -/
theorem test_hex : hexOfBytes [0xba, 0x78, 0x16, 0xbf] = ['b', 'a', '7', '8', '1', '6', 'b', 'f'] := by decide

/-- A word placed at reset is executed by the next step, and its response recorded. -/
theorem test_step_runs_placed_word : stepped (State.reset.withFetchWord 48 0x11000000061) =
    { engine := after (.putb 0x61) Engine.reset, pending := [], responses := [{ resp := .okay, rdata := 0 }] } := by decide

/-- R45: the reset event. -/
theorem test_reset_event : stepped { State.reset with engine := stagedWith 0x3FF 0x41, pending := [.reset] } = State.reset := by
  decide

/-! ### Witnesses: for every statement with hypotheses, inputs that meet them all, clause by clause -/

/-- `DecodeInvertsEncode`: an instruction's word, and two different words equal but for ignored bits. -/
theorem witness_DecodeInvertsEncode : decode (.ofT 0x110ffffff61) = .instr (.putb 0x61) ∧
    (Transaction.ofT 0x110ffffff61).canonical = (Transaction.ofT 0x11000000061).canonical ∧
    Transaction.ofT 0x110ffffff61 ≠ Transaction.ofT 0x11000000061 := by decide

/-- `OpcodeRowsAreDisjoint`. -/
theorem witness_OpcodeRowsAreDisjoint : (⟨.putb, 0x11000000000, 0x1FF00000000⟩ : OpcodeRow) ∈ opcodeTable ∧
    OpcodeRow.hit ⟨.putb, 0x11000000000, 0x1FF00000000⟩ 0x11000000061 = true := by decide

/-- `IllegalWordsAreExactlyTheFiveClasses`: a word of each class; the first reserved command and the last legal one. -/
theorem witness_IllegalWords : decode (.ofT 0x10300000004) = .illegal .misaligned ∧
    decode (.ofT 0x10400000000) = .illegal .writeToReadOnly ∧ decode (.ofT 0x01000000000) = .illegal .readOfWriteOnly ∧
    decode (.ofT 0x0fc00000000) = .illegal .reservedOffset ∧ decode (.ofT 0x10000000006) = .illegal .reservedCommand ∧
    decode (.ofT 0x10000000005) = .instr .msclr := by decide

/-- `OperandsComeFromTheirFields`: each of its hypotheses. -/
theorem witness_Operands : decode (.ofT 0x110ffffff61) = .instr (.putb 0x61) ∧
    decode (.ofT 0x11461626364) = .instr (.putw 0x61626364) ∧ decode (.ofT 0x19c00635e66) = .instr (.wmsin 7 0x00635e66) ∧
    decode (.ofT 0x1a000000040) = .instr (.wmscntl 0x40) ∧ decode (.ofT 0x1a400000009) = .instr (.wmscnth 9) ∧
    decode (.ofT 0x03c00000000) = .instr (.rdigest 7) ∧ decode (.ofT 0x05c00000000) = .instr (.rmsout 7) ∧
    4294967295 < 2 ^ 32 := by decide

/-- `StepRunsTheDecodedTransaction`: an instruction, an illegal word and the reset event at the head. -/
theorem witness_StepRuns :
    (issued Engine.reset 0x10000000005).pending = [.transaction (.ofT 0x10000000005)] ∧
    decode (.ofT 0x10000000005) = .instr .msclr ∧
    (issued Engine.reset 0x10000000006).pending = [.transaction (.ofT 0x10000000006)] ∧
    decode (.ofT 0x10000000006) = .illegal .reservedCommand ∧
    ({ State.reset with engine := stagedWith 1 2, pending := [.reset] } : State).pending = [.reset] := by decide

/-- `StepWithoutEventsHoldsTheState`. -/
theorem witness_NoEvents :
    ({ State.reset with engine := stagedWith 1 2 } : State).pending = [] := by decide

/-- `EveryTransactionReturnsOneResponse`: a write, a rejected read, and a read that returns a value. -/
theorem witness_OneResponse : (Transaction.ofT 0x10000000005).we = true ∧
    serve (.ofT 0x00500000000) State.reset = .next (State.reset.answer { resp := .illegal, rdata := 0 }) ∧
    serve (.ofT 0x00400000000) { State.reset with engine := holdsA 63 } =
      .next ({ State.reset with engine := holdsA 63 }.answer { resp := .okay, rdata := 63 }) :=
  ⟨by decide, rfl, rfl⟩

/-- `RejectedTransactionChangesNothing`: a rejected transaction, and `PUTW` on either side of the boundary. -/
theorem witness_Rejected : serve (.ofT 0x10000000003) { State.reset with engine := holdsA 1 } =
      .next ({ State.reset with engine := holdsA 1 }.answer { resp := .stateBoundary, rdata := 0 }) ∧
    decode (.ofT 0x11461616161) = .instr (.putw 0x61616161) ∧ Instr.absorbed (.putw 0x61616161) ≠ [] ∧
    (holdsA 59).bufLen.toNat + (Instr.absorbed (.putw 0x61616161)).length < 64 ∧
    64 ≤ (holdsA 60).bufLen.toNat + (Instr.absorbed (.putw 0x61616161)).length :=
  ⟨rfl, by decide, by decide, by decide, by decide⟩

/-- `ResponseCodesHaveExactlyTheirCauses`: each cause, and each cause just absent. -/
theorem witness_Causes : decode (.ofT 0x10000000002) = .instr .load ∧ (stagedWith 0x3FE 0).msinMask ≠ 0x3FF ∧
    (stagedWith 0x3FF 63).msinCnt.extractLsb' 0 6 ≠ 0 ∧ (stagedWith 0x3FF 64).msinCnt.extractLsb' 0 6 = 0 ∧
    decode (.ofT 0x10000000003) = .instr .exportMs ∧ (holdsA 63).bufLen ≠ 0 ∧ (holdsA 0).bufLen = 0 ∧
    decode (.ofT 0x10000000006) = .illegal .reservedCommand ∧ decode (.ofT 0x10000000004) = .instr .final := by decide

/-- `ReadsAndRepeatsHaveNoFurtherEffect`: a read, an idempotent write, an absorbing write, an accepted `LOAD`. -/
theorem witness_Repeats : (Transaction.ofT 0x00400000000).we = false ∧
    serve (.ofT 0x00400000000) State.reset = .next (State.reset.answer { resp := .okay, rdata := 0 }) ∧
    Instr.absorbed (.wmsin 3 5) = [] ∧ Instr.wmsin 3 5 ≠ .load ∧
    exec (.wmsin 3 5) State.reset = .next (run (.wmsin 3 5) State.reset) ∧
    Instr.absorbed (.putb 0) ≠ [] ∧
    exec .load { State.reset with engine := stagedWith 0x3FF 64 } =
      .next (run .load { State.reset with engine := stagedWith 0x3FF 64 }) ∧
    (run .load { State.reset with engine := stagedWith 0x3FF 64 }).engine.count = 64 :=
  ⟨by decide, rfl, by decide, by decide, rfl, by decide, rfl, by decide⟩

/-- `PutbAbsorbsOneByte`, `PutwCrossesAtMostOneBoundary`: their cases at the edges. -/
theorem witness_Boundaries : (holdsA 63).bufLen = 63 ∧ (holdsA 62).bufLen ≠ 63 ∧ (holdsA 59).bufLen.toNat < 60 ∧
    60 ≤ (holdsA 60).bufLen.toNat ∧ 60 ≤ (holdsA 63).bufLen.toNat := by decide

/-- `ChooseAndMajorityWorkBitByBit`, `SigmaFunctionsWorkBitByBit`, `ScheduleFollowsTheRecurrence`,
`CompressRunsSixtyFourRounds`: a last bit, a last round, a schedule word. -/
theorem witness_Indices : 31 < 32 ∧ 63 < 64 ∧ roundConstants[63]? = some 0xc67178f2 ∧
    (0 : Word) ∈ schedule (Vector.replicate 64 0) := by decide +kernel

/-- `PaddedBlocksHaveTheirBytes`: the pending lengths 0, 55, 56 and 63, and a second buffer equal up to there. -/
theorem witness_Padding : 63 ≤ 63 ∧ 63 ≤ (List.replicate 64 (1 : Byte)).length ∧ 0 ≤ ([] : List Byte).length ∧
    (padBytes 55 0 (List.replicate 55 1)).length = 1 ∧ (padBytes 56 0 (List.replicate 56 1)).length = 2 ∧
    ([1, 2, 3] : List Byte).take 2 = ([1, 2] : List Byte).take 2 := by decide

/-- `FinalLatchesTheDigest`: the two sides of its cases. -/
theorem witness_FinalCases : (holdsA 55).bufLen.toNat ≤ 55 ∧ 56 ≤ (holdsA 56).bufLen.toNat := by decide

/-- `ExportSnapshotsOnlyAtABoundary`, `HostExportGivesTheMidstate`. -/
theorem witness_ExportCases : (holdsA 0).bufLen = 0 ∧ (holdsA 1).bufLen ≠ 0 := by decide

/-- `LoadSeedsOnlyACompleteMidstate`: complete and aligned; a word missing; the count off by one. -/
theorem witness_LoadCases : ((stagedWith 0x3FF 64).msinMask = 0x3FF ∧ (stagedWith 0x3FF 64).msinCnt.toNat % 64 = 0) ∧
    (stagedWith 0x1FF 64).msinMask ≠ 0x3FF ∧ (stagedWith 0x3FF 65).msinCnt.toNat % 64 ≠ 0 := by decide

/-- The statements about each register's writers, `EveryStepCompletes` and the invariants take any step: here one with an
instruction, one with the reset event, one with an illegal word and an idle one. -/
theorem witness_Steps : step (issued (holdsA 5) 0x11000000061) = .next (stepped (issued (holdsA 5) 0x11000000061)) ∧
    (stepped (issued (holdsA 5) 0x11000000061)).engine.count = 6 ∧
    step { State.reset with pending := [.reset] } = .next State.reset ∧
    (stepped (issued (holdsA 5) 0x10000000006)).engine = holdsA 5 ∧ step State.reset = .next State.reset :=
  ⟨rfl, by decide, rfl, by decide, rfl⟩

/-- `AccumulatorHasOnlyItsWriters`, `BufferIsWrittenOnlyByAbsorbedBytes`: a step that changes `H` and one that changes `BUF`. -/
theorem witness_Writers : (stepped (issued (holdsA 63) 0x11000000061)).engine.h ≠ (holdsA 63).h ∧
    (stepped (issued (holdsA 3) 0x11000000062)).engine.buf[3] ≠ (holdsA 3).buf[3] := by decide +kernel

/-- `CountGoesUpOnlyWithAbsorbedBytes`, `DigestLatchHasOnlyItsWriters`, `SnapshotHasOnlyItsWriters` and
`StagingHasOnlyItsWriters`: an event of each kind they name. -/
theorem witness_Events : (HostEvent.transaction (.ofT 0x10000000001)).isInstr .init ∧
    (HostEvent.transaction (.ofT 0x10000000002)).isInstr .load ∧ (HostEvent.transaction (.ofT 0x10000000003)).isInstr .exportMs ∧
    (HostEvent.transaction (.ofT 0x10000000004)).isInstr .final ∧ (HostEvent.transaction (.ofT 0x10000000005)).isInstr .msclr ∧
    (HostEvent.transaction (.ofT 0x11000000061)).isPut ∧ (HostEvent.transaction (.ofT 0x19c00000005)).isInstr (.wmsin 7 5) ∧
    (HostEvent.transaction (.ofT 0x1a000000005)).isInstr (.wmscntl 5) ∧
    (HostEvent.transaction (.ofT 0x1a400000005)).isInstr (.wmscnth 5) ∧ Instr.continues (.putb 0x61) = true ∧
    decode (.ofT 0x10000000006) = .illegal .reservedCommand :=
  ⟨⟨_, rfl, by decide⟩, ⟨_, rfl, by decide⟩, ⟨_, rfl, by decide⟩, ⟨_, rfl, by decide⟩, ⟨_, rfl, by decide⟩,
    .inl ⟨0x61, _, rfl, by decide⟩, ⟨_, rfl, by decide⟩, ⟨_, rfl, by decide⟩, ⟨_, rfl, by decide⟩, by decide, by decide⟩

/-- The staging statement's bit clauses: a bit that a step clears and one that a step sets. -/
theorem witness_MaskBits : (stagedWith 0x200 0).msinMask.getLsbD 9 = true ∧
    (stepped (issued (stagedWith 0x200 0) 0x10000000005)).engine.msinMask.getLsbD 9 = false ∧
    (stepped (issued (stagedWith 0 0) 0x19c00000005)).engine.msinMask.getLsbD 7 = true := by decide

/-- `StepKeepsTheEngineInvariant`, `SnapshotReadsReturnTheSnapshot`: a state other than reset's that meets the invariant. -/
theorem witness_Inv : (holdsA 5).Inv ∧ (holdsA 5).msoutValid = false := ⟨⟨by decide, by decide, by decide, by decide⟩, rfl⟩

/-- `StepKeepsTheMessageHistory`, `FinalLatchesTheSha256OfTheMessage`: an engine that holds five bytes. -/
theorem witness_Holds : (holdsA 5).Holds { History.fresh with bytes := List.replicate 5 0x61 } ∧
    (List.replicate 5 (0x61 : Byte)).length < 2 ^ 61 :=
  ⟨⟨by decide, by decide, by decide, by decide, by decide⟩, by decide⟩

/-- `ChunkingDoesNotMatter`: one word, or four bytes with a read and a `FINAL` between them. -/
theorem witness_Chunking : (∀ i ∈ ([.putw 0x61626364] : List Instr), i.continues = true) ∧
    (∀ i ∈ ([.putb 0x61, .putb 0x62, .final, .putb 0x63, .rstatus, .putb 0x64] : List Instr), i.continues = true) ∧
    ([.putw 0x61626364] : List Instr).flatMap Instr.absorbed =
      ([.putb 0x61, .putb 0x62, .final, .putb 0x63, .rstatus, .putb 0x64] : List Instr).flatMap Instr.absorbed ∧
    (holdsA 5).SameComputation (holdsA 5) :=
  ⟨by decide, by decide, by decide, Engine.SameComputation.refl _⟩

/-- `DeadBufferBytesAreNeverSeen`: two different engines that the host cannot tell apart. -/
theorem witness_DeadBytes : (holdsA 5).Indistinguishable { holdsA 5 with buf := (holdsA 5).buf.set 5 0xFF } ∧
    holdsA 5 ≠ { holdsA 5 with buf := (holdsA 5).buf.set 5 0xFF } :=
  ⟨⟨⟨rfl, rfl, rfl, by decide⟩, rfl, rfl, rfl, rfl, rfl, rfl, rfl, rfl⟩, by decide⟩

/-- `HostDigestIsTheSha256OfTheMessage`, `ImportedMidstateResumesTheMessage`: a message, and a prefix of one block. -/
theorem witness_HostMessages : ([0x61, 0x62, 0x63] : List Byte).length < 2 ^ 61 ∧
    (List.replicate 64 (0x61 : Byte)).length % 64 = 0 := by decide

/-- `ImportRejectsExactlyMalformedMidstates`: a good midstate, a blob too short, one too long, a count off a boundary. -/
theorem witness_Midstates :
    ((Midstate.mk (List.replicate 32 1) 64).blob.length = 32 ∧ (Midstate.mk (List.replicate 32 1) 64).count.toNat % 64 = 0) ∧
    (Midstate.mk (List.replicate 31 1) 64).blob.length ≠ 32 ∧ 32 < (Midstate.mk (List.replicate 33 1) 64).blob.length ∧
    (Midstate.mk (List.replicate 32 1) 65).count.toNat % 64 ≠ 0 := by decide

/-- `HexDigestRendersEachDigestByte`: an index, and a digit of each kind. -/
theorem witness_Hex : 0 < ([0x0f] : List Byte).length ∧ hexOfBytes [0x0f] = ['0', 'f'] := by decide

end Sys2Proof.Tests
end

section
/-! SUPPORT. Who writes each register: what one event of the host does to the engine, said once for every event, and what
each instruction does to the registers that few instructions write. -/

namespace Sys2Proof

/-! ### Events and the instructions they carry -/

@[simp] theorem HostEvent.not_isInstr_reset (i : Instr) : ¬ HostEvent.reset.isInstr i := by
  simp [HostEvent.isInstr]

@[simp] theorem HostEvent.isInstr_transaction (x : Transaction) (i : Instr) :
    (HostEvent.transaction x).isInstr i ↔ decode x = .instr i := by
  simp [HostEvent.isInstr]

/-- The instructions with message bytes are `PUTB` and `PUTW`. -/
theorem Instr.absorbed_ne_nil {i : Instr} : i.absorbed ≠ [] ↔ (∃ b, i = .putb b) ∨ ∃ w, i = .putw w := by
  cases i <;> simp [Instr.absorbed, Machine.be32]

theorem HostEvent.isPut_iff (ev : HostEvent) : ev.isPut ↔ ∃ i, ev.isInstr i ∧ i.absorbed ≠ [] := by
  constructor
  · rintro (⟨b, h⟩ | ⟨w, h⟩)
    · exact ⟨_, h, Instr.absorbed_ne_nil.2 (.inl ⟨b, rfl⟩)⟩
    · exact ⟨_, h, Instr.absorbed_ne_nil.2 (.inr ⟨w, rfl⟩)⟩
  · rintro ⟨i, h, hne⟩
    obtain ⟨b, rfl⟩ | ⟨w, rfl⟩ := Instr.absorbed_ne_nil.1 hne
    · exact .inl ⟨b, h⟩
    · exact .inr ⟨w, h⟩

end Sys2Proof

namespace Sys2Proof.Machine

/-- `step_cases` for the engine and a given oldest event: the reset event, one instruction and no other, or a word that is
no instruction. -/
theorem step_engine_cases {s t : State} {ev : HostEvent} {rest : List HostEvent} (hp : s.pending = ev :: rest)
    (h : step s = .next t) :
    (ev = .reset ∧ t.engine = Engine.reset) ∨
    (∃ i, ev ≠ .reset ∧ (∀ j, ev.isInstr j ↔ i = j) ∧ t.engine = engineAfter i s.engine) ∨
    (ev ≠ .reset ∧ (∀ j, ¬ ev.isInstr j) ∧ t.engine = s.engine) := by
  obtain ⟨hn, -⟩ | ⟨_, hr, rfl⟩ | ⟨x, _, i, hx, hd, rfl⟩ | ⟨x, _, why, hx, hd, rfl⟩ := step_cases h
  · simp [hp] at hn
  · obtain ⟨rfl, -⟩ := List.cons.inj (hp.symm.trans hr)
    exact .inl ⟨rfl, rfl⟩
  · obtain ⟨rfl, -⟩ := List.cons.inj (hp.symm.trans hx)
    exact .inr (.inl ⟨i, by simp, by simp [hd], rfl⟩)
  · obtain ⟨rfl, -⟩ := List.cons.inj (hp.symm.trans hx)
    exact .inr (.inr ⟨by simp, by simp [hd], rfl⟩)

/-! ### Sequences of bytes -/

/-- What no absorbed byte changes, no sequence of bytes changes. -/
theorem Engine.absorbAll_keeps {α : Type} {f : Engine → α} (hf : ∀ e b, f (Engine.absorb e b) = f e) (e : Engine)
    (m : List Byte) : f (e.absorbAll m) = f e := by
  induction m generalizing e with
  | nil => rfl
  | cons b m ih => rw [Engine.absorbAll_cons, ih, hf]

@[simp] theorem Engine.absorbAll_digest (e : Engine) (m : List Byte) : (e.absorbAll m).digest = e.digest :=
  Engine.absorbAll_keeps Engine.absorb_digest e m

@[simp] theorem Engine.absorbAll_msout (e : Engine) (m : List Byte) : (e.absorbAll m).msout = e.msout :=
  Engine.absorbAll_keeps Engine.absorb_msout e m

@[simp] theorem Engine.absorbAll_msoutCnt (e : Engine) (m : List Byte) : (e.absorbAll m).msoutCnt = e.msoutCnt :=
  Engine.absorbAll_keeps Engine.absorb_msoutCnt e m

@[simp] theorem Engine.absorbAll_msoutValid (e : Engine) (m : List Byte) :
    (e.absorbAll m).msoutValid = e.msoutValid :=
  Engine.absorbAll_keeps Engine.absorb_msoutValid e m

/-- R120: the last byte absorbed clears `DIGEST_VALID`. -/
theorem Engine.absorbAll_digestValid (e : Engine) {m : List Byte} (h : m ≠ []) :
    (e.absorbAll m).digestValid = false := by
  rw [← List.dropLast_append_getLast h, Engine.absorbAll_append]
  simp

/-! ### `STATUS` after reset, and the tests that `EXPORT` and `LOAD` make -/

theorem Engine.atBoundary_iff (e : Engine) : e.atBoundary = true ↔ e.bufLen = 0 := by
  simp [Engine.atBoundary]

/-- R148: the count is a multiple of 64 when its low six bits are 0. -/
theorem Engine.stagedCountAligned_iff (e : Engine) : e.stagedCountAligned = true ↔ e.msinCnt.toNat % 64 = 0 := by
  simp [Engine.stagedCountAligned, ← BitVec.toNat_inj]

/-- R148: `LOAD` succeeds when all ten words are staged and the count is a multiple of 64. -/
theorem Engine.loadable_iff (e : Engine) :
    (e.staged && e.stagedCountAligned) = true ↔ e.msinMask = 0x3FF ∧ e.msinCnt.toNat % 64 = 0 := by
  simp [Engine.staged, Engine.stagedCountAligned_iff]

/-- R45: `STATUS` reads 0 after reset. -/
@[simp] theorem Engine.reset_status : Engine.reset.status = 0 := by decide

/-! ### What an instruction does to the digest latch (R25, R26) -/

theorem engineAfter_keeps_digest {i : Instr} (h : i ≠ .final) (e : Engine) : (engineAfter i e).digest = e.digest := by
  cases i
  case final => exact absurd rfl h
  case load | exportMs => simp only [engineAfter]; split <;> simp
  all_goals simp [engineAfter]

theorem engineAfter_digestValid_of_load (e : Engine) : (engineAfter .load e).digestValid =
    if e.msinMask = 0x3FF ∧ e.msinCnt.toNat % 64 = 0 then false else e.digestValid := by
  simp only [engineAfter, Engine.loadable_iff]
  split <;> simp

theorem engineAfter_digestValid_of_put {i : Instr} (h : i.absorbed ≠ []) (e : Engine) :
    (engineAfter i e).digestValid = false := by
  rw [engineAfter_put h, Engine.absorbAll_digestValid e h]

theorem engineAfter_keeps_digestValid {i : Instr} (hfinal : i ≠ .final) (hinit : i ≠ .init) (hload : i ≠ .load)
    (hput : i.absorbed = []) (e : Engine) : (engineAfter i e).digestValid = e.digestValid := by
  cases i
  case final => exact absurd rfl hfinal
  case init => exact absurd rfl hinit
  case load => exact absurd rfl hload
  case putb | putw => simp [Instr.absorbed, be32] at hput
  case exportMs => simp only [engineAfter]; split <;> simp
  all_goals simp [engineAfter]

/-! ### What an instruction does to the snapshot (R27 to R29) -/

theorem engineAfter_export {e : Engine} (h : e.bufLen = 0) : engineAfter .exportMs e = e.snapshot := by
  rw [engineAfter, if_pos (e.atBoundary_iff.2 h)]

theorem engineAfter_export_of_ne {e : Engine} (h : e.bufLen ≠ 0) : engineAfter .exportMs e = e := by
  rw [engineAfter, if_neg (mt e.atBoundary_iff.1 h)]

theorem engineAfter_keeps_snapshot {i : Instr} {e : Engine} (h : ¬ (i = .exportMs ∧ e.bufLen = 0)) :
    (engineAfter i e).msout = e.msout ∧ (engineAfter i e).msoutCnt = e.msoutCnt ∧
      (engineAfter i e).msoutValid = e.msoutValid := by
  cases i
  case exportMs => simp [engineAfter_export_of_ne (fun h0 => h ⟨rfl, h0⟩)]
  case load => simp only [engineAfter]; split <;> simp
  all_goals simp [engineAfter]

end Sys2Proof.Machine
end

section
/-! The statements of the family 10_state. -/

namespace Sys2Proof.Proofs

open Sys2Proof.Machine

/-- Settles O39, by the kind of the event served: reset, an instruction, or a word that is none. -/
theorem digestLatchHasOnlyItsWriters : Obligations.DigestLatchHasOnlyItsWriters := by
  intro s t ev rest hp h
  obtain ⟨rfl, ht⟩ | ⟨i, hev, hi, ht⟩ | ⟨hev, hi, ht⟩ := step_engine_cases hp h
  · simp [HostEvent.isPut_iff, ht, Engine.reset]
  · simp only [HostEvent.isPut_iff, hi, ht, exists_eq_left', hev, ne_eq, not_false_eq_true, forall_const,
      false_imp_iff, true_and, not_not]
    refine ⟨?_, fun hfinal => engineAfter_keeps_digest hfinal _, ?_, ?_, ?_⟩
    · rintro rfl; exact ⟨rfl, rfl⟩
    · rintro (rfl | hput)
      · rfl
      · exact engineAfter_digestValid_of_put hput _
    · rintro rfl; exact engineAfter_digestValid_of_load _
    · intro hfinal hinit hload hput
      exact engineAfter_keeps_digestValid hfinal hinit hload hput _
  · simp [HostEvent.isPut_iff, hi, ht, hev]

/-- Settles O40, by the kind of the event served; off a block boundary `EXPORT` is one of the instructions that keep the
snapshot. -/
theorem snapshotHasOnlyItsWriters : Obligations.SnapshotHasOnlyItsWriters := by
  intro s t ev rest hp h
  obtain ⟨rfl, ht⟩ | ⟨i, hev, hi, ht⟩ | ⟨hev, hi, ht⟩ := step_engine_cases hp h
  · simp [ht, Engine.reset]
  · refine ⟨fun hx hb => ?_, fun hr => absurd hr hev, fun _ hn => ?_⟩
    · obtain rfl := (hi _).1 hx
      rw [ht, engineAfter_export hb]
      exact ⟨rfl, rfl, rfl⟩
    · rw [ht]
      exact engineAfter_keeps_snapshot (by rwa [hi] at hn)
  · simp [hi, ht, hev]

/-- Settles O8: the reset event's next state, field by field. -/
theorem resetEventGivesTheResetValues : Obligations.ResetEventGivesTheResetValues := by
  intro s
  refine ⟨s.applyReset, rfl, rfl, rfl, rfl, rfl, ?_, rfl, ?_, rfl, rfl, rfl, rfl, rfl, Engine.reset_status⟩
  · simp [Engine.reset]
  · simp [Engine.reset]

end Sys2Proof.Proofs
end

section
/-! SUPPORT. The decoder in full: which word it rejects and with which class, what it ignores of a word, and that the opcode
map of R74 names the same instructions. -/

namespace Sys2Proof

/-! ### The registers' offsets (R33) and the lists of R76 -/

/-- The registers of R33, in the order of their offsets. -/
def Reg.all : List Reg :=
  [.ctrl, .status, .countLo, .countHi, .din8, .din32] ++ (List.finRange 8).map .digest ++
    (List.finRange 8).map .msout ++ [.msoutCntLo, .msoutCntHi] ++ (List.finRange 8).map .msin ++
    [.msinCntLo, .msinCntHi]

/-- A fact about every register is one about the list, which `decide` can go through. -/
theorem Reg.mem_all (r : Reg) : r ∈ Reg.all := by
  cases r <;> simp [Reg.all]

@[simp] theorem Reg.offset_aligned (r : Reg) : r.offset.toNat % 4 = 0 :=
  (by decide : ∀ r ∈ Reg.all, r.offset.toNat % 4 = 0) r (Reg.mem_all r)

@[simp] theorem Reg.offset_isReadOnly (r : Reg) : r.offset.isReadOnly = true ↔ r.dir = .readOnly :=
  (by decide : ∀ r ∈ Reg.all, r.offset.isReadOnly = true ↔ r.dir = .readOnly) r (Reg.mem_all r)

@[simp] theorem Reg.offset_isWriteOnly (r : Reg) : r.offset.isWriteOnly = true ↔ r.dir = .writeOnly :=
  (by decide : ∀ r ∈ Reg.all, r.offset.isWriteOnly = true ↔ r.dir = .writeOnly) r (Reg.mem_all r)

@[simp] theorem Reg.offset_not_isReserved (r : Reg) : r.offset.isReserved = false :=
  (by decide : ∀ r ∈ Reg.all, r.offset.isReserved = false) r (Reg.mem_all r)

@[simp] theorem Reg.offset_eq_zero (r : Reg) : r.offset = 0#8 ↔ r = .ctrl :=
  (by decide : ∀ r ∈ Reg.all, r.offset = 0#8 ↔ r = .ctrl) r (Reg.mem_all r)

@[simp] theorem Reg.offset_eq_din8 (r : Reg) : r.offset = 16#8 ↔ r = .din8 :=
  (by decide : ∀ r ∈ Reg.all, r.offset = 16#8 ↔ r = .din8) r (Reg.mem_all r)

@[simp] theorem Reg.digest_index (i : Fin 8) : (Reg.digest i).offset.index = i := by
  revert i; decide

@[simp] theorem Reg.msout_index (i : Fin 8) : (Reg.msout i).offset.index = i := by
  revert i; decide

@[simp] theorem Reg.msin_index (i : Fin 8) : (Reg.msin i).offset.index = i := by
  revert i; decide

/-- R76 (d): a reserved offset stands in neither of the lists (b) and (c); in particular it is not `CTRL`. -/
theorem Addr.isReserved_excludes {a : Addr} (h : a.isReserved = true) :
    a.isReadOnly = false ∧ a.isWriteOnly = false ∧ a ≠ 0#8 := by
  revert h; revert a; decide

/-- R59, R75: the decoder's test of `addr[1:0]` is the test for a multiple of 4. -/
theorem Addr.lowBits_eq_zero (a : Addr) : a.extractLsb' 0 2 = 0 ↔ a.toNat % 4 = 0 := by
  simp [← BitVec.toNat_inj]

/-! ### What the decoder can answer (R75) -/

/-- At a register's offset the direction decides. -/
theorem decode_of_offset {t : Transaction} {r : Reg} (h : t.addr = r.offset) :
    decode t = if t.we = decide (r.dir = .writeOnly) then r.access t.wdata
      else .illegal (if t.we then .writeToReadOnly else .readOfWriteOnly) := by
  unfold decode
  rw [h, (regAt_offset r).2, (regAt_offset r).1]
  cases hd : r.dir <;> cases hw : t.we <;> simp [hd]

/-- R75: the offset is misaligned, reserved, or a register's. -/
theorem decode_cases (t : Transaction) :
    (t.addr.toNat % 4 ≠ 0 ∧ decode t = .illegal .misaligned) ∨
    (t.addr.toNat % 4 = 0 ∧ t.addr.isReserved = true ∧ decode t = .illegal .reservedOffset) ∨
    ∃ r : Reg, t.addr = r.offset ∧ decode t = if t.we = decide (r.dir = .writeOnly) then r.access t.wdata
      else .illegal (if t.we then .writeToReadOnly else .readOfWriteOnly) := by
  by_cases ha : t.addr.extractLsb' 0 2 = 0
  · cases hr : regAt t.addr with
    | none => exact .inr (.inl ⟨t.addr.lowBits_eq_zero.1 ha, (regAt_eq_none ha).1 hr, by simp [decode, ha, hr]⟩)
    | some r =>
      have h := offset_of_regAt ha hr
      exact .inr (.inr ⟨r, h, decode_of_offset h⟩)
  · exact .inl ⟨mt t.addr.lowBits_eq_zero.2 ha, if_pos ha⟩

/-- R34, R72: the command code is "compared as a whole 32-bit number". -/
theorem commandOf_eq (w : Word) : commandOf w =
    if w.toNat = 0 then .instr .nop else if w.toNat = 1 then .instr .init else if w.toNat = 2 then .instr .load
    else if w.toNat = 3 then .instr .exportMs else if w.toNat = 4 then .instr .final
    else if w.toNat = 5 then .instr .msclr else .illegal .reservedCommand := by
  unfold commandOf
  generalize w.toNat = n
  split <;> simp_all

/-- R76 (e): the reserved command codes are those from 6 on. -/
theorem commandOf_eq_illegal {w : Word} {why : IllegalWord} :
    commandOf w = .illegal why ↔ why = .reservedCommand ∧ 6 ≤ w.toNat := by
  rw [commandOf_eq]
  split_ifs <;> simp [eq_comm] <;> omega

/-- R76: in its legal direction only the access of `CTRL` is rejected. -/
theorem Reg.access_eq_illegal {r : Reg} {w : Word} {why : IllegalWord} :
    r.access w = .illegal why ↔ r = .ctrl ∧ why = .reservedCommand ∧ 6 ≤ w.toNat := by
  cases r <;> simp [Reg.access, commandOf_eq_illegal]

/-- R76 with the order of R166: the words the decoder rejects with each class. -/
def IllegalWord.Describes (t : Transaction) : IllegalWord → Prop
  | .misaligned => t.addr.toNat % 4 ≠ 0
  | .writeToReadOnly => t.addr.toNat % 4 = 0 ∧ t.we = true ∧ t.addr.isReadOnly = true
  | .readOfWriteOnly => t.addr.toNat % 4 = 0 ∧ t.we = false ∧ t.addr.isWriteOnly = true
  | .reservedOffset => t.addr.toNat % 4 = 0 ∧ t.addr.isReserved = true
  | .reservedCommand => t.we = true ∧ t.addr = 0x00 ∧ 6 ≤ t.wdata.toNat

theorem decode_eq_illegal {t : Transaction} {why : IllegalWord} : decode t = .illegal why ↔ why.Describes t := by
  obtain ⟨ha, hd⟩ | ⟨ha, hr, hd⟩ | ⟨r, ha, hd⟩ := decode_cases t
  · have h0 : t.addr ≠ 0#8 := by rintro h; simp [h] at ha
    cases why <;> simp [hd, IllegalWord.Describes, ha, h0]
  · obtain ⟨hro, hwo, h0⟩ := Addr.isReserved_excludes hr
    cases why <;> simp [hd, IllegalWord.Describes, ha, hr, hro, hwo, h0]
  · cases hdir : r.dir with
    | readOnly =>
      have hc : r ≠ .ctrl := by rintro rfl; cases hdir
      cases hwe : t.we <;> cases why <;>
        simp [hd, IllegalWord.Describes, ha, hdir, hwe, Reg.access_eq_illegal, hc]
    | writeOnly =>
      cases hwe : t.we <;> cases why <;>
        simp [hd, IllegalWord.Describes, ha, hdir, hwe, Reg.access_eq_illegal]

theorem exists_instr_iff_not_illegal (t : Transaction) :
    (∃ i, decode t = .instr i) ↔ ¬ ∃ why, decode t = .illegal why := by
  cases decode t <;> simp

theorem IllegalWord.forall_iff {p : IllegalWord → Prop} : (∀ why, p why) ↔
    p .misaligned ∧ p .writeToReadOnly ∧ p .readOfWriteOnly ∧ p .reservedOffset ∧ p .reservedCommand :=
  ⟨fun h => ⟨h _, h _, h _, h _, h _⟩, fun ⟨ha, hb, hc, hd, he⟩ why => by cases why <;> assumption⟩

/-- R76: the list of the rule, offset by offset, is the list of the decoder's five classes. -/
theorem Transaction.wellFormed_iff (t : Transaction) : t.wellFormed = true ↔ ∀ why : IllegalWord, ¬ why.Describes t := by
  rw [IllegalWord.forall_iff]
  by_cases ha : t.addr.toNat % 4 = 0 <;> cases hw : t.we <;>
    simp [IllegalWord.Describes, Transaction.wellFormed, Transaction.aligned, Transaction.reservedCommand, ha, hw,
      and_left_comm, and_comm, imp_iff_not_or]

/-! ### What the decoder ignores (R73) -/

@[simp] theorem Transaction.canonical_we (t : Transaction) : t.canonical.we = t.we := by
  unfold Transaction.canonical; split_ifs <;> rfl

@[simp] theorem Transaction.canonical_addr (t : Transaction) : t.canonical.addr = t.addr := by
  unfold Transaction.canonical; split_ifs <;> rfl

theorem Transaction.canonical_of_read {t : Transaction} (h : t.we = false) : t.canonical = { t with wdata := 0 } := by
  simp [Transaction.canonical, h]

theorem Transaction.canonical_of_write {t : Transaction} (hw : t.we = true) (ha : t.addr ≠ 0x10) : t.canonical = t := by
  unfold Transaction.canonical
  rw [if_neg (by simp [hw]), if_neg ha]

theorem Transaction.canonical_of_din8 {t : Transaction} (hw : t.we = true) (ha : t.addr = 0x10) :
    t.canonical = { t with wdata := t.wdata &&& 0xFF } := by
  unfold Transaction.canonical
  rw [if_neg (by simp [hw]), if_pos ha]

/-- R73: the byte of `PUTB` as the encoder writes it is the written word without its ignored bits. -/
theorem setWidth_lowByte (w : Word) : (w.extractLsb' 0 8).setWidth 32 = w &&& 0xFF := by
  apply BitVec.eq_of_toNat_eq
  have hmask : w.toNat &&& 255 = w.toNat % 2 ^ 8 := Nat.and_two_pow_sub_one_eq_mod _ 8
  simp [hmask]
  omega

theorem encode_of_read {r : Reg} {w : Word} {i : Instr} (hd : r.dir = .readOnly) (h : r.access w = .instr i) :
    encode i = readOf r := by
  cases r <;> cases hd <;> cases h <;> rfl

theorem encode_of_command {w : Word} {i : Instr} (h : commandOf w = .instr i) : encode i = writeOf .ctrl w := by
  obtain ⟨rfl, rfl⟩ | ⟨rfl, rfl⟩ | ⟨rfl, rfl⟩ | ⟨rfl, rfl⟩ | ⟨rfl, rfl⟩ | ⟨rfl, rfl⟩ := commandOf_eq_instr h <;> rfl

theorem encode_of_write {r : Reg} {w : Word} {i : Instr} (hd : r.dir = .writeOnly) (hr : r ≠ .din8)
    (h : r.access w = .instr i) : encode i = writeOf r w := by
  cases r <;> cases hd
  case ctrl => exact encode_of_command h
  case din8 => exact absurd rfl hr
  all_goals cases h; rfl

/-- R73: the encoding of what a word decodes to is the word with zeros in its ignored bits. -/
theorem encode_of_decode {t : Transaction} {i : Instr} (h : decode t = .instr i) : encode i = t.canonical := by
  obtain ⟨r, ha, hw, hx⟩ := decode_eq_instr.1 h
  obtain ⟨we, addr, wdata⟩ := t
  dsimp only at ha hw hx
  subst ha
  cases hd : r.dir <;> simp only [hd, reduceCtorEq, decide_false, decide_true] at hw <;> subst hw
  case readOnly => rw [encode_of_read hd hx, Transaction.canonical_of_read rfl, readOf]
  case writeOnly =>
    by_cases hr : r = .din8
    · subst hr
      cases hx
      rw [Transaction.canonical_of_din8 rfl rfl, encode, setWidth_lowByte, writeOf]
    · rw [encode_of_write hd hr hx, Transaction.canonical_of_write rfl (by simp [hr]), writeOf]

theorem encode_addr {t : Transaction} {i : Instr} (h : decode t = .instr i) : (encode i).addr = t.addr := by
  rw [encode_of_decode h, Transaction.canonical_addr]

/-- R73: only reads and writes of `DIN8` have ignored bits. -/
theorem encode_eq_of_write {t : Transaction} {i : Instr} (h : decode t = .instr i) (hw : (encode i).we = true)
    (ha : (encode i).addr ≠ 0x10) : encode i = t := by
  rw [encode_of_decode h] at hw ha ⊢
  exact Transaction.canonical_of_write (by simpa using hw) (by simpa using ha)

theorem IllegalWord.describes_canonical (t : Transaction) (why : IllegalWord) :
    why.Describes t.canonical ↔ why.Describes t := by
  cases why
  case reservedCommand =>
    simp only [IllegalWord.Describes, Transaction.canonical_we, Transaction.canonical_addr]
    refine and_congr_right fun hw => and_congr_right fun ha => ?_
    rw [Transaction.canonical_of_write hw (by simp [ha])]
  all_goals simp [IllegalWord.Describes]

/-- R73: the ignored bits do not matter to the decoder. -/
theorem decode_canonical (t : Transaction) : decode t.canonical = decode t := by
  cases h : decode t with
  | instr i => rw [← encode_of_decode h, Machine.decode_encode]
  | illegal why => exact decode_eq_illegal.2 ((why.describes_canonical t).2 (decode_eq_illegal.1 h))

theorem canonical_encode (i : Instr) : (encode i).canonical = encode i :=
  (encode_of_decode (Machine.decode_encode i)).symm

/-- A transaction is served as what it decodes to. -/
theorem Machine.serve_congr {t u : Transaction} (h : decode t = decode u) (s : Machine.State) :
    Machine.serve t s = Machine.serve u s := by
  unfold Machine.serve; rw [h]

/-! ### The opcode map (R74) -/

theorem Transaction.toT_and (t u : Transaction) : t.toT &&& u.toT =
    Transaction.toT { we := t.we && u.we, addr := t.addr &&& u.addr, wdata := t.wdata &&& u.wdata } := by
  unfold Transaction.toT
  rw [← BitVec.ofBool_and_ofBool, ← BitVec.and_append]
  exact BitVec.and_append

theorem Transaction.toT_inj {t u : Transaction} : t.toT = u.toT ↔ t = u :=
  ⟨fun h => by simpa using congrArg Transaction.ofT h, congrArg _⟩

/-- A row compares each field of the word by itself. -/
theorem OpcodeRow.hit_toT (row : OpcodeRow) (t : Transaction) : row.hit t.toT = true ↔
    (t.we && (Transaction.ofT row.mask).we) = (Transaction.ofT row.bits).we ∧
    t.addr &&& (Transaction.ofT row.mask).addr = (Transaction.ofT row.bits).addr ∧
    t.wdata &&& (Transaction.ofT row.mask).wdata = (Transaction.ofT row.bits).wdata := by
  rw [OpcodeRow.hit, decide_eq_true_eq]
  conv_lhs => rw [← Transaction.toT_ofT row.mask, ← Transaction.toT_ofT row.bits, Transaction.toT_and, Transaction.toT_inj]
  rw [Transaction.mk.injEq]

/-- R74: the row is one word, the write of a command code. -/
def OpcodeRow.IsCommand (row : OpcodeRow) : Prop :=
  row.mask = BitVec.allOnes 41 ∧ ∃ n < 6, row.bits = (writeOf .ctrl (BitVec.ofNat 32 n)).toT

/-- R74: the row does not compare the write data, and it is not for writes of `CTRL`. -/
def OpcodeRow.IgnoresData (row : OpcodeRow) : Prop :=
  (Transaction.ofT row.mask).wdata = 0 ∧ (Transaction.ofT row.bits).wdata = 0 ∧ row.hit (writeOf .ctrl 0).toT = false

theorem opcodeTable_rows : ∀ row ∈ opcodeTable, row.IsCommand ∨ row.IgnoresData := by
  unfold OpcodeRow.IsCommand OpcodeRow.IgnoresData
  decide

theorem OpcodeRow.IsCommand.fields_of_hit {row : OpcodeRow} (h : row.IsCommand) {t : Transaction}
    (ht : row.hit t.toT = true) : t.we = true ∧ t.addr = 0 ∧ t.wdata.toNat < 6 := by
  obtain ⟨hm, n, hn, hb⟩ := h
  rw [OpcodeRow.hit, hm, BitVec.and_allOnes, hb, decide_eq_true_eq, Transaction.toT_inj] at ht
  subst ht
  refine ⟨rfl, rfl, ?_⟩
  simp [writeOf]; omega

theorem OpcodeRow.IsCommand.hit_eq_false {row : OpcodeRow} (h : row.IsCommand) {t : Transaction}
    (hc : ¬ (t.we = true ∧ t.addr = 0)) : row.hit t.toT = false := by
  rw [Bool.eq_false_iff]
  intro ht
  obtain ⟨hw, ha, -⟩ := h.fields_of_hit ht
  exact hc ⟨hw, ha⟩

theorem OpcodeRow.IgnoresData.hit_withData {row : OpcodeRow} (h : row.IgnoresData) (t : Transaction) (w : Word) :
    row.hit { t with wdata := w }.toT = row.hit t.toT := by
  obtain ⟨hm, hb, -⟩ := h
  rw [Bool.eq_iff_iff, OpcodeRow.hit_toT, OpcodeRow.hit_toT, hm, hb]
  simp

theorem OpcodeRow.IgnoresData.hit_command {row : OpcodeRow} (h : row.IgnoresData) (w : Word) :
    row.hit (writeOf .ctrl w).toT = false := by
  have hw := h.hit_withData (writeOf .ctrl 0) w
  obtain ⟨-, -, h0⟩ := h
  exact hw.trans h0

/-- R74: what a word's data is matters only in writes of `CTRL`. -/
theorem tableLookup_withData {t : Transaction} (hc : ¬ (t.we = true ∧ t.addr = 0)) (w : Word) :
    tableLookup { t with wdata := w }.toT = tableLookup t.toT := by
  unfold tableLookup
  congr 1
  refine List.find?_congr fun row hrow => ?_
  obtain h | h := opcodeTable_rows row hrow
  · exact (h.hit_eq_false (t := { t with wdata := w }) hc).trans (h.hit_eq_false hc).symm
  · exact h.hit_withData t w

/-- R74: no row has a reserved command code. -/
theorem tableLookup_reservedCommand {w : Word} (h : 6 ≤ w.toNat) : tableLookup (writeOf .ctrl w).toT = none := by
  rw [tableLookup, Option.map_eq_none_iff, List.find?_eq_none]
  intro row hrow ht
  obtain hr | hr := opcodeTable_rows row hrow
  · obtain ⟨-, -, hw⟩ := hr.fields_of_hit ht
    exact absurd hw (Nat.not_lt.2 h)
  · exact Bool.false_ne_true ((hr.hit_command w).symm.trans ht)

/-- R75: outside `CTRL` the data of a write does not decide which instruction it is. -/
theorem decode_withData {t : Transaction} (hc : ¬ (t.we = true ∧ t.addr = 0)) (w : Word) :
    (decode { t with wdata := w }).toOption.map Instr.mnemonic = (decode t).toOption.map Instr.mnemonic := by
  obtain ⟨ha, hd⟩ | ⟨ha, hr, hd⟩ | ⟨r, ha, hd⟩ := decode_cases t
  · rw [hd, (decode_eq_illegal (t := { t with wdata := w }) (why := .misaligned)).2 ha]
  · rw [hd, (decode_eq_illegal (t := { t with wdata := w }) (why := .reservedOffset)).2 ⟨ha, hr⟩]
  · rw [hd, decode_of_offset (t := { t with wdata := w }) ha]
    dsimp only
    split_ifs with hw
    · cases r
      case ctrl => exact absurd ⟨hw, ha⟩ hc
      all_goals rfl
    all_goals rfl

/-- R75 for every header of a word, the 512 values of `T[40:32]`. -/
theorem tableLookup_header : ∀ (we : Bool) (a : Addr),
    tableLookup (Transaction.toT { we := we, addr := a, wdata := 0 }) =
      (decode { we := we, addr := a, wdata := 0 }).toOption.map Instr.mnemonic := by
  decide

/-- R75 for the six command codes. -/
theorem tableLookup_command : ∀ n < 6, tableLookup (writeOf .ctrl (BitVec.ofNat 32 n)).toT =
    (decode (writeOf .ctrl (BitVec.ofNat 32 n))).toOption.map Instr.mnemonic := by
  decide

/-- R75: on every word the opcode map names the instruction the decoder reads, and none where it reads none. -/
theorem tableLookup_toT (t : Transaction) : tableLookup t.toT = (decode t).toOption.map Instr.mnemonic := by
  by_cases hc : t.we = true ∧ t.addr = 0
  · obtain ⟨we, addr, w⟩ := t
    obtain ⟨rfl, rfl⟩ := hc
    by_cases h6 : 6 ≤ w.toNat
    · rw [(decode_eq_illegal (why := .reservedCommand)).2 ⟨rfl, rfl, h6⟩]
      exact tableLookup_reservedCommand h6
    · have := tableLookup_command w.toNat (by omega)
      rwa [BitVec.ofNat_toNat, BitVec.setWidth_eq] at this
  · rw [← tableLookup_withData hc 0, ← decode_withData hc 0]
    exact tableLookup_header t.we t.addr

end Sys2Proof
end

section
/-! The statements of the family 30_encoding. -/

namespace Sys2Proof.Proofs

/-- Settles O2: what a word decodes to encodes to its canonical form, so the decoder cannot see the ignored bits. -/
theorem decodeInvertsEncode : Obligations.DecodeInvertsEncode := by
  refine ⟨fun i => ⟨Machine.decode_encode i, canonical_encode i⟩, fun _ _ => encode_of_decode, fun t u s h => ?_,
    Transaction.toT_ofT, Transaction.ofT_toT⟩
  have hd : decode t = decode u := by rw [← decode_canonical t, h, decode_canonical]
  exact ⟨hd, Machine.serve_congr hd s⟩

/-- Settles O5: `decode_eq_illegal` names the words of each class, and the opcode map agrees with the decoder. -/
theorem illegalWordsAreExactlyTheFiveClasses : Obligations.IllegalWordsAreExactlyTheFiveClasses := by
  intro t
  refine ⟨?_, ?_, decode_eq_illegal, decode_eq_illegal, decode_eq_illegal, decode_eq_illegal, decode_eq_illegal,
    fun why s h => Machine.serve_of_illegal h s⟩
  · rw [t.wellFormed_iff, exists_instr_iff_not_illegal, not_exists]
    simp only [decode_eq_illegal]
  · rw [tableLookup_toT]
    cases decode t <;> simp [Decoded.toOption]

/-- Settles O6: the word of an instruction has the fields of its encoding, but for ignored bits. -/
theorem operandsComeFromTheirFields : Obligations.OperandsComeFromTheirFields := by
  refine ⟨?_, fun i w => ⟨_, _, _, Machine.decode_encode _, Machine.decode_encode _, Machine.decode_encode _⟩, ?_, ?_,
    fun w => ⟨decode_writeOf (r := .din32) rfl w, rfl⟩, ?_⟩
  · rintro t i (⟨w, h⟩ | h | h) <;> rw [← encode_addr h]
    · exact congrArg Fin.val (Reg.msin_index i).symm
    · exact congrArg Fin.val (Reg.digest_index i).symm
    · exact congrArg Fin.val (Reg.msout_index i).symm
  · intro n hn
    refine (decode_writeOf (r := .ctrl) rfl _).trans ((commandOf_eq _).trans ?_)
    rw [BitVec.toNat_ofNat, Nat.mod_eq_of_lt hn]
  · intro w
    refine ⟨w.extractLsb' 0 8, decode_writeOf (r := .din8) rfl w, fun k hk => ?_⟩
    simp [hk]
  · rintro t w (⟨i, h⟩ | h | h) <;>
      exact congrArg Transaction.wdata (encode_eq_of_write h rfl (by simp [encode, writeOf]))

end Sys2Proof.Proofs
end

section
/-! SUPPORT. What the reads of `STATUS` and of the byte counter return: the bits of the status word, and the number that two
halves make. -/

namespace Sys2Proof.Machine

/-! ### The status word (R35) -/

/-- R35: the status word bit by bit. `MSIN_MASK` has no bit from 10 on, so bits 31:26 are 0 as well. -/
theorem Engine.status_getLsbD (e : Engine) (k : Nat) : e.status.getLsbD k =
    if k < 6 then e.bufLen.getLsbD k else if k = 8 then e.digestValid else if k = 9 then e.msoutValid
    else if 16 ≤ k then e.msinMask.getLsbD (k - 16) else false := by
  have hlen : 6 ≤ k → e.bufLen.getLsbD k = false := e.bufLen.getLsbD_of_ge k
  have hmask : 26 ≤ k → e.msinMask.getLsbD (k - 16) = false := fun h => e.msinMask.getLsbD_of_ge _ (by omega)
  simp only [Engine.status, BitVec.getLsbD_or, BitVec.getLsbD_shiftLeft, BitVec.getLsbD_setWidth,
    BitVec.getLsbD_ofBool]
  split_ifs with h6 h8 h9 h16
  · simp [show k < 8 by omega, show k < 9 by omega, show k < 16 by omega, show k < 32 by omega]
  · simp [h8]
  · simp [h9]
  · grind
  · grind

/-- R35: the reserved ranges, bits 7:6, 15:10 and 31:26, read 0. -/
theorem Engine.status_reserved (e : Engine) {lo n : Nat}
    (h : (6 ≤ lo ∧ lo + n ≤ 8) ∨ (10 ≤ lo ∧ lo + n ≤ 16) ∨ 26 ≤ lo) : e.status.extractLsb' lo n = 0 := by
  refine BitVec.eq_of_getLsbD_eq fun k hk => ?_
  rw [BitVec.getLsbD_extractLsb', Engine.status_getLsbD, if_neg (by omega), if_neg (by omega), if_neg (by omega)]
  obtain h16 | h26 : lo + k < 16 ∨ 26 ≤ lo + k := by omega
  · simp [h16]
  · simp [show 10 ≤ lo + k - 16 by omega]

theorem Engine.status_bufLen (e : Engine) : e.status.extractLsb' 0 6 = e.bufLen := by
  refine BitVec.eq_of_getLsbD_eq fun k hk => ?_
  simp [Engine.status_getLsbD, hk]

theorem Engine.status_msinMask (e : Engine) : e.status.extractLsb' 16 10 = e.msinMask := by
  refine BitVec.eq_of_getLsbD_eq fun k hk => ?_
  rw [BitVec.getLsbD_extractLsb', Engine.status_getLsbD, if_neg (by omega), if_neg (by omega), if_neg (by omega)]
  simp [hk]

/-! ### The halves of a counter (R56) -/

/-- R56: the number that the halves `hi` and `lo` make. -/
theorem joinHalves_toNat (hi lo : Word) : (joinHalves hi lo).toNat = hi.toNat * 2 ^ 32 + lo.toNat := by
  rw [joinHalves, BitVec.toNat_append, ← Nat.shiftLeft_add_eq_or_of_lt lo.isLt, Nat.shiftLeft_eq]

end Sys2Proof.Machine
end

section
/-! The statements of the family 40_lifecycle_control. -/

namespace Sys2Proof.Proofs

open Sys2Proof.Machine

/-- Settles O16: `exec_eq` for `NOP`, after which the engine is the one before. -/
theorem nopLeavesTheEngineAsItWas : Obligations.NopLeavesTheEngineAsItWas :=
  ⟨by decide, exec_eq .nop⟩

/-- Settles O17: `exec_eq` for `INIT`, after which the engine is `Engine.fresh`. -/
theorem initMakesAFreshEngine : Obligations.InitMakesAFreshEngine :=
  ⟨by decide, exec_eq .init⟩

/-- Settles O18: the value read is the status word, field by field and reserved range by reserved range. -/
theorem rstatusReadsTheStatusFields : Obligations.RstatusReadsTheStatusFields := by
  refine ⟨by decide, fun s => ⟨s.engine.status, exec_eq .rstatus s, ?_⟩⟩
  generalize s.engine = e
  exact ⟨e.status_bufLen, e.status_reserved (by omega), e.status_getLsbD 8, e.status_getLsbD 9,
    e.status_reserved (by omega), e.status_msinMask, e.status_reserved (by omega)⟩

/-- Settles O19: the two halves read are those of `COUNT`, and joined they are `COUNT`. -/
theorem countReadsReturnTheLiveCounter : Obligations.CountReadsReturnTheLiveCounter := by
  refine ⟨by decide, by decide, fun s => ⟨lowHalf s.engine.count, highHalf s.engine.count, exec_eq .rcntl s,
    exec_eq .rcnth s, rfl, rfl, ?_⟩⟩
  rw [← joinHalves_toNat, joinHalves_halves]

end Sys2Proof.Proofs
end

section
/-! SUPPORT. The compression function: the bits of its word functions, the words of the message schedule in their order, and
the working variables round by round. -/

namespace Sys2Proof.Machine

/-! ### Bits of the word functions (R100 to R106) -/

theorem ch_getLsbD (x y z : Word) {k : Nat} (hk : k < 32) :
    (ch x y z).getLsbD k = if x.getLsbD k then y.getLsbD k else z.getLsbD k := by
  rw [ch, BitVec.getLsbD_xor, BitVec.getLsbD_and, BitVec.getLsbD_and, BitVec.getLsbD_not, decide_eq_true hk]
  cases x.getLsbD k <;> simp

theorem maj_getLsbD (x y z : Word) (k : Nat) : (maj x y z).getLsbD k =
    decide (2 ≤ (x.getLsbD k).toNat + (y.getLsbD k).toNat + (z.getLsbD k).toNat) := by
  simp only [maj, BitVec.getLsbD_xor, BitVec.getLsbD_and]
  generalize x.getLsbD k = p, y.getLsbD k = q, z.getLsbD k = r
  revert p q r
  decide

/-- R100: the right rotation is the library's. -/
theorem rotr_eq_rotateRight (x : Word) {n : Nat} (hn : n < 32) : rotr x n = x.rotateRight n := by
  rw [BitVec.rotateRight_def, Nat.mod_eq_of_lt hn, rotr]

/-- R100: a rotation brings the bits that leave at the bottom back at the top. -/
theorem rotr_getLsbD (x : Word) {n k : Nat} (hn : n < 32) (hk : k < 32) :
    (rotr x n).getLsbD k = x.getLsbD ((k + n) % 32) := by
  rw [rotr_eq_rotateRight x hn, BitVec.getLsbD_rotateRight, Nat.mod_eq_of_lt hn, decide_eq_true hk, Bool.true_and,
    Bool.cond_decide]
  split <;> congr 1 <;> omega

/-- R100: a shift brings in zeros at the top. -/
theorem shr_getLsbD (x : Word) (n k : Nat) :
    (shr x n).getLsbD k = (decide (k + n < 32) && x.getLsbD (k + n)) := by
  rw [shr, BitVec.getLsbD_ushiftRight, Nat.add_comm]
  by_cases h : k + n < 32
  · simp [h]
  · simp [h, BitVec.getLsbD_of_ge x (k + n) (by omega)]

theorem rotations_getLsbD (x : Word) {a b c k : Nat} (ha : a < 32) (hb : b < 32) (hc : c < 32) (hk : k < 32) :
    (rotations a b c x).getLsbD k =
      ((x.getLsbD ((k + a) % 32) ^^ x.getLsbD ((k + b) % 32)) ^^ x.getLsbD ((k + c) % 32)) := by
  rw [rotations, BitVec.getLsbD_xor, BitVec.getLsbD_xor, rotr_getLsbD x ha hk, rotr_getLsbD x hb hk, rotr_getLsbD x hc hk]

theorem rotationsAndShift_getLsbD (x : Word) {a b : Nat} (c : Nat) {k : Nat} (ha : a < 32) (hb : b < 32) (hk : k < 32) :
    (rotationsAndShift a b c x).getLsbD k =
      ((x.getLsbD ((k + a) % 32) ^^ x.getLsbD ((k + b) % 32)) ^^ (decide (k + c < 32) && x.getLsbD (k + c))) := by
  rw [rotationsAndShift, BitVec.getLsbD_xor, BitVec.getLsbD_xor, rotr_getLsbD x ha hk, rotr_getLsbD x hb hk, shr_getLsbD]

/-! ### Message schedule (R109, R110) -/

/-- The word that the last of `n + 1` extensions puts before the others comes from the words of the first `n`. -/
theorem extendSchedule_succ (n : Nat) (ws : List Word) :
    extendSchedule (n + 1) ws = nextScheduleWord (extendSchedule n ws) :: extendSchedule n ws := by
  induction n generalizing ws with
  | zero => rfl
  | succ n ih => rw [extendSchedule, ih, extendSchedule]

/-- Extension keeps the words there are. -/
theorem extendSchedule_drop (m n : Nat) (ws : List Word) :
    (extendSchedule (m + n) ws).drop m = extendSchedule n ws := by
  induction m with
  | zero => simp
  | succ m ih => rw [Nat.succ_add, extendSchedule_succ, List.drop_succ_cons, ih]

/-- `W[i]` is found in the partial schedule of `16 + t` words, which has its latest word, `W[t + 15]`, first. -/
theorem schedule_getD (b : Block) {t i j : Nat} (ht : t ≤ 48) (h : i + j = t + 15) :
    (schedule b).getD i 0 = (extendSchedule t (messageWordsRev b)).getD j 0 := by
  have hlen : (extendSchedule 48 (messageWordsRev b)).length = 64 := by
    simp [extendSchedule_length, messageWordsRev]
  have hdrop := extendSchedule_drop (48 - t) t (messageWordsRev b)
  rw [Nat.sub_add_cancel ht] at hdrop
  rw [← hdrop, schedule, List.getD_eq_getElem?_getD, List.getElem?_reverse (by omega), List.getD_eq_getElem?_getD,
    List.getElem?_drop, hlen]
  congr 2; omega

/-- R109: the first sixteen schedule words are the message words. -/
theorem schedule_getD_message (b : Block) (t : Fin 16) : (schedule b).getD t 0 = messageWord b t := by
  rw [schedule_getD b (t := 0) (j := 15 - t) (by omega) (by omega), extendSchedule, messageWordsRev,
    List.getD_eq_getElem?_getD, List.getElem?_reverse (by simp; omega)]
  simp [show 15 - (15 - t.val) = t.val by omega]

/-- R110: the recurrence. -/
theorem schedule_getD_recurrence (b : Block) {t : Nat} (ht : t < 48) : (schedule b).getD (t + 16) 0 =
    smallSigma1 ((schedule b).getD (t + 14) 0) + (schedule b).getD (t + 9) 0 +
      smallSigma0 ((schedule b).getD (t + 1) 0) + (schedule b).getD t 0 := by
  have hprev {i j : Nat} (h : i + j = t + 15) := schedule_getD b ht.le h
  rw [schedule_getD b (t := t + 1) (j := 0) ht (by omega), extendSchedule_succ, List.getD_cons_zero, nextScheduleWord,
    hprev (i := t + 14) (j := 1) (by omega), hprev (i := t + 9) (j := 6) (by omega),
    hprev (i := t + 1) (j := 14) (by omega), hprev (i := t) (j := 15) (by omega)]

theorem schedule_eq_ofFn (b : Block) : schedule b = List.ofFn fun t : Fin 64 => (schedule b).getD t 0 := by
  refine List.ext_getElem (by simp [schedule_length]) fun t ht _ => ?_
  rw [List.getElem_ofFn, List.getD_eq_getElem _ _ ht]

/-! ### The schedule of a zero block (R110) -/

theorem nextScheduleWord_zeros (n : Nat) : nextScheduleWord (List.replicate n 0) = 0 := by
  have hget : ∀ i, (List.replicate n (0 : Word)).getD i 0 = 0 := fun i => by
    rw [List.getD_eq_getElem?_getD, List.getElem?_replicate]
    split <;> rfl
  simp only [nextScheduleWord, hget]
  decide

theorem extendSchedule_zeros (n m : Nat) :
    extendSchedule n (List.replicate m 0) = List.replicate (n + m) 0 := by
  induction n with
  | zero => simp [extendSchedule]
  | succ n ih => rw [extendSchedule_succ, ih, nextScheduleWord_zeros, Nat.succ_add, List.replicate_succ]

theorem messageWordsRev_zeros : messageWordsRev (Vector.replicate 64 0) = List.replicate 16 0 := by decide

theorem schedule_zeros : schedule (Vector.replicate 64 0) = List.replicate 64 0 := by
  rw [schedule, messageWordsRev_zeros, extendSchedule_zeros, List.reverse_replicate]

/-! ### Rounds (R111 to R113) -/

/-- R112: one more round, with the pair that is next. -/
theorem Vars.rounds_take_succ (v : Vars) {kws : List (Word × Word)} {t : Nat} {k w : Word} (h : kws[t]? = some (k, w)) :
    v.rounds (kws.take (t + 1)) = (v.rounds (kws.take t)).round k w := by
  rw [List.take_add_one, h, Vars.rounds_append]
  rfl

/-- R111, R112: the working variables before round `t` of a compression. -/
def Vars.before (acc : Words8) (b : Block) (t : Nat) : Vars :=
  (Vars.start acc).rounds ((roundConstants.zip (schedule b)).take t)

theorem Vars.before_zero (acc : Words8) (b : Block) : Vars.before acc b 0 = Vars.start acc := rfl

theorem Vars.before_succ (acc : Words8) (b : Block) {t : Nat} {k w : Word} (hk : roundConstants[t]? = some k)
    (hw : (schedule b)[t]? = some w) : Vars.before acc b (t + 1) = (Vars.before acc b t).round k w :=
  Vars.rounds_take_succ _ (List.getElem?_zip_eq_some.2 ⟨hk, hw⟩)

/-- R113: 64 rounds are all there are. -/
theorem compress_eq_addVars (acc : Words8) (b : Block) : compress acc b = addVars acc (Vars.before acc b 64) := by
  rw [compress, Vars.before, List.take_of_length_le]
  simp [roundConstants_length, schedule_length]

theorem addVars_eq (acc : Words8) (v : Vars) : addVars acc v = #v[acc[0] + v.a, acc[1] + v.b, acc[2] + v.c,
    acc[3] + v.d, acc[4] + v.e, acc[5] + v.f, acc[6] + v.g, acc[7] + v.h] := rfl

end Sys2Proof.Machine
end

section
/-! The statements of the family 41_compression. -/

namespace Sys2Proof.Proofs

open Sys2Proof.Machine

/-- Settles O24: the two shapes of the functions bit by bit, each with the amounts of its rule. -/
theorem sigmaFunctionsWorkBitByBit : Obligations.SigmaFunctionsWorkBitByBit := fun x _ hk =>
  ⟨rotations_getLsbD x (by omega) (by omega) (by omega) hk, rotations_getLsbD x (by omega) (by omega) (by omega) hk,
    rotationsAndShift_getLsbD x 3 (by omega) (by omega) hk, rotationsAndShift_getLsbD x 10 (by omega) (by omega) hk⟩

/-- Settles O25: the schedule's words are found in its partial schedules, and zero words give a zero word. -/
theorem scheduleFollowsTheRecurrence : Obligations.ScheduleFollowsTheRecurrence := by
  refine ⟨fun b => ⟨_, schedule_eq_ofFn b, schedule_getD_message b, fun t => schedule_getD_recurrence b t.isLt⟩,
    fun w hw => ?_⟩
  rw [schedule_zeros] at hw
  exact List.eq_of_mem_replicate hw

/-- Settles O26: the working variables are those before each round, and those before round 64 are the last. -/
theorem compressRunsSixtyFourRounds : Obligations.CompressRunsSixtyFourRounds := by
  refine fun acc blk => ⟨Vars.before acc blk, Vars.before_zero acc blk, fun t ht => ?_,
    (compress_eq_addVars acc blk).trans (addVars_eq acc _)⟩
  have hk := List.getElem?_eq_getElem (roundConstants_length ▸ ht)
  have hw := List.getElem?_eq_getElem (schedule_length blk ▸ ht)
  exact ⟨_, _, _, _, hk, hw, rfl, rfl, Vars.before_succ acc blk hk hw⟩

/-- Settles O23: the bits of `ch` and of `maj`. -/
theorem chooseAndMajorityWorkBitByBit : Obligations.ChooseAndMajorityWorkBitByBit := fun x y z k hk =>
  ⟨ch_getLsbD x y z hk, maj_getLsbD x y z k⟩

end Sys2Proof.Proofs
end

section
/-! SUPPORT. Absorbing bytes, for every engine: how `BUFLEN` wraps, what one byte writes and what it leaves, a run of `PUTB`s,
and the transaction word of a data write. -/

namespace Sys2Proof

/-- R70: `wdata` is the low 32 bits of a transaction word, so it adds to the word that carries 0. -/
theorem writeOf_toT (r : Reg) (w : Word) : (writeOf r w).toT = (writeOf r 0).toT + w.setWidth 41 := by
  rw [BitVec.setWidth_eq_append (by decide)]
  exact BitVec.append_zero_add_zero_append.symm

end Sys2Proof

namespace Sys2Proof.Machine

/-! ### One byte (R120) -/

/-- R23, R124: `BUFLEN` goes up by one for each byte, modulo 64. -/
theorem Engine.absorb_bufLen_toNat (e : Engine) (b : Byte) :
    (e.absorb b).bufLen.toNat = (e.bufLen.toNat + 1) % 64 := by
  rw [Engine.absorb_bufLen]
  split
  next h => rw [h]; rfl
  next h => rw [BitVec.toNat_add]; rfl

/-- R120: `BUF[BUFLEN]` is the byte, and the other bytes are those before. -/
theorem Engine.absorb_buf_getElem (e : Engine) (b : Byte) (j : Fin 64) :
    (e.absorb b).buf[j] = if j.val = e.bufLen.toNat then b else e.buf[j] := by
  simp [Vector.getElem_set, eq_comm]

/-- R121, "State written": an absorbed byte leaves every register but those of R120. -/
theorem Engine.absorb_frame (e : Engine) (b : Byte) : e.absorb b =
    { e with buf := (e.absorb b).buf, count := (e.absorb b).count, h := (e.absorb b).h,
             bufLen := (e.absorb b).bufLen, digestValid := false } := by
  simp only [Engine.absorb, Engine.advance]
  split <;> rfl

/-! ### Sequences of bytes -/

/-- R124: `BUFLEN` goes up by the number of bytes, modulo 64. -/
theorem Engine.absorbAll_bufLen_toNat (e : Engine) (m : List Byte) :
    (e.absorbAll m).bufLen.toNat = (e.bufLen.toNat + m.length) % 64 := by
  induction m generalizing e with
  | nil => exact (Nat.mod_eq_of_lt e.bufLen.isLt).symm
  | cons b m ih =>
    rw [Engine.absorbAll_cons, ih, Engine.absorb_bufLen_toNat, Nat.mod_add_mod, List.length_cons, Nat.add_assoc,
      Nat.add_comm 1]

/-- R79, R121: `PUTB`s in order absorb their bytes in order, with one `OKAY` each. -/
theorem execAll_putbs (m : List Byte) (s : State) : execAll (m.map Instr.putb) s = .next { s with
    engine := s.engine.absorbAll m,
    responses := s.responses ++ List.replicate m.length { resp := .okay, rdata := 0 } } := by
  induction m generalizing s with
  | nil => simp [execAll]
  | cons b m ih =>
    rw [List.map_cons, execAll_cons, ih]
    simp [State.answer, engineAfter, responseOf, List.replicate_succ]

/-! ### `COUNT` and `BUFLEN` along an instruction (R124) -/

theorem engineAfter_count {i : Instr} (h : i.continues = true) (e : Engine) :
    (engineAfter i e).count = e.count + BitVec.ofNat 64 i.absorbed.length :=
  (engineAfter_sameComputation h e).count_eq.trans (e.absorbAll_count _)

theorem engineAfter_bufLen_toNat {i : Instr} (h : i.continues = true) (e : Engine) :
    (engineAfter i e).bufLen.toNat = (e.bufLen.toNat + i.absorbed.length) % 64 := by
  rw [(engineAfter_sameComputation h e).bufLen_eq, Engine.absorbAll_bufLen_toNat]

/-- R148: `LOAD` takes the staged count at a block boundary, or is rejected. -/
theorem engineAfter_load_cases (e : Engine) : engineAfter .load e = e.seed ∨ engineAfter .load e = e := by
  simp only [engineAfter]
  split
  · exact .inl rfl
  · exact .inr rfl

end Sys2Proof.Machine
end

section
/-! The statements of the family 42_update. -/

namespace Sys2Proof.Proofs

open Sys2Proof.Machine

/-- Settles O20: `exec_eq` for `PUTB`, after which the engine has absorbed the byte; the block completes or it does not. -/
theorem putbAbsorbsOneByte : Obligations.PutbAbsorbsOneByte := by
  refine ⟨fun v => decode_writeOf (r := .din8) rfl v, fun b s => ⟨s.engine.absorb b, exec_eq (.putb b) s,
    s.engine.absorb_buf_getElem b, ?_, fun h63 => ⟨?_, ?_⟩, fun h63 => ⟨?_, ?_⟩, s.engine.absorb_frame b⟩⟩
  · rw [Engine.absorb_count, BitVec.toNat_add]; rfl
  · rw [Engine.absorb_h, if_pos h63, Engine.absorb_buf]
  · rw [Engine.absorb_bufLen, if_pos h63]
  · rw [Engine.absorb_h, if_neg h63]
  · rw [Engine.absorb_bufLen, if_neg h63, bufLen_succ h63]

/-- Settles O37, by the kind of the event served: reset, an instruction, or a word that is none. -/
theorem countGoesUpOnlyWithAbsorbedBytes : Obligations.CountGoesUpOnlyWithAbsorbedBytes := by
  intro s t ev rest hp h
  obtain ⟨rfl, ht⟩ | ⟨i, hev, hi, ht⟩ | ⟨hev, hi, ht⟩ := step_engine_cases hp h
  · simp [ht, Engine.reset]
  · simp only [ht, hi, hev, false_or, forall_eq']
    refine ⟨fun hc => ⟨?_, engineAfter_bufLen_toNat hc _⟩, ?_, ?_, ?_⟩
    · simp [engineAfter_count hc]
    · rintro rfl; exact ⟨rfl, rfl⟩
    · rintro rfl
      obtain hload | hload := engineAfter_load_cases s.engine <;> simp [hload]
    · rintro ⟨x, why, rfl, hx⟩
      simp [hx] at hi
  · simp [ht, hi, hev]

/-- Settles O21: the four `PUTB`s are those of `be32 w`, the bytes that `PUTW w` absorbs. -/
theorem putwEqualsFourPutbs : Obligations.PutwEqualsFourPutbs := by
  have hword : (writeOf .din32 0).toT = 0x11400000000 := by decide
  exact ⟨fun w => hword ▸ writeOf_toT .din32 w, fun w s =>
    ⟨_, _, _, rfl, exec_eq (.putw w) s, execAll_putbs (be32 w) s, rfl, rfl, rfl, rfl, rfl⟩⟩

end Sys2Proof.Proofs
end

section
/-! SUPPORT. Finalization: the padded blocks byte by byte, one block or two, and the digest in hexadecimal. -/

namespace Sys2Proof.Machine

/-! ### The length field (R53, R130) -/

/-- R8: the bytes of `be64`, the most significant one first. -/
theorem be64_getElem? (v : Count) {k : Nat} (hk : k < 8) : (be64 v)[k]? = some (v.extractLsb' (8 * (7 - k)) 8) := by
  have hhalf (t : Nat) {s : Nat} (h : s + 8 ≤ 32) :
      (v.extractLsb' t 32).extractLsb' s 8 = v.extractLsb' (t + s) 8 := by
    refine BitVec.eq_of_getLsbD_eq fun j hj => ?_
    simp [hj, show s + j < 32 by omega, Nat.add_assoc]
  rw [be64, be32, be32]
  simp only [hhalf, Nat.reduceAdd, Nat.reduceLeDiff]
  interval_cases k <;> rfl

/-- R130: below bit 64 the bit length is eight times the count, so a byte of it is a byte of that number. -/
theorem bitLength_extractLsb' (c : Count) {i : Nat} (hi : i < 8) :
    (bitLength c).extractLsb' (8 * i) 8 = BitVec.ofNat 8 (8 * c.toNat / 256 ^ i) := by
  refine BitVec.eq_of_getLsbD_eq fun k hk => ?_
  have hpow : 256 ^ i = 2 ^ (8 * i) := by rw [Nat.pow_mul]
  have hbit : (bitLength c).getLsbD (8 * i + k) = (8 * c.toNat).testBit (8 * i + k) := by
    rw [bitLength, BitVec.mul_comm, ← BitVec.testBit_toNat, BitVec.toNat_mul, Nat.testBit_mod_two_pow,
      decide_eq_true (by omega), Bool.true_and]; rfl
  rw [BitVec.getLsbD_extractLsb', hbit, hpow, BitVec.getLsbD_ofNat, Nat.testBit_div_two_pow, Nat.add_comm k]

/-! ### The padded blocks (R130) -/

/-- R130: one padded block up to 55 pending bytes, two from 56 on. -/
theorem padBytes_length (n : Nat) (c : Count) (buf : List Byte) :
    (padBytes n c buf).length = if n ≤ 55 then 1 else 2 := by
  unfold padBytes; split <;> rfl

/-- R130: the padded blocks in sequence are the pending bytes, `0x80`, one run of zeros and the length field. -/
theorem padBytes_flatten (n : Nat) (c : Count) (buf : List Byte) :
    ∃ z, (padBytes n c buf).flatten = buf.take n ++ (0x80 :: (zeroBytes z ++ be64 (bitLength c))) := by
  unfold padBytes
  split
  · exact ⟨55 - n, by simp⟩
  · exact ⟨63 - n + 56, by simp [zeroBytes, List.replicate_add]⟩

/-- R130: one padded sequence byte by byte. -/
theorem padded_getElem? (p : List Byte) (z : Nat) (c : Count) {j : Nat} (hj : j < p.length + z + 9) :
    (p ++ (0x80 :: (zeroBytes z ++ be64 (bitLength c))))[j]? = some
      (if j < p.length then p.getD j 0 else if j = p.length then 0x80 else if j + 8 < p.length + z + 9 then 0
       else BitVec.ofNat 8 (8 * c.toNat / 256 ^ (p.length + z + 9 - 1 - j))) := by
  split_ifs with hp h80 hz
  · simp [List.getElem?_append_left, hp]
  · simp [h80]
  all_goals
    obtain ⟨k, rfl⟩ : ∃ k, j = p.length + (k + 1) := ⟨j - p.length - 1, by omega⟩
    rw [List.getElem?_append_right (by omega), Nat.add_sub_cancel_left, List.getElem?_cons_succ]
  · rw [List.getElem?_append_left (by simp; omega), zeroBytes, List.getElem?_replicate, if_pos (by omega)]
  · rw [List.getElem?_append_right (by simp; omega), be64_getElem? _ (by simp; omega),
      bitLength_extractLsb' _ (by omega), zeroBytes_length,
      show p.length + z + 9 - 1 - (p.length + (k + 1)) = 7 - (k - z) by omega]

theorem pad_of_le {n : Nat} (h : n ≤ 55) (c : Count) (buf : List Byte) : ∃ p, pad n c buf = [p] := by
  rw [← List.length_eq_one_iff, pad, List.length_map, padBytes_length, if_pos h]

theorem pad_of_ge {n : Nat} (h : 56 ≤ n) (c : Count) (buf : List Byte) : ∃ p q, pad n c buf = [p, q] := by
  rw [← List.length_eq_two, pad, List.length_map, padBytes_length, if_neg (by omega)]

/-- The blocks hold the padded bytes. -/
theorem pad_flatMap_toList {n : Nat} {buf : List Byte} (hn : n ≤ 63) (hb : n ≤ buf.length) (c : Count) :
    (pad n c buf).flatMap Vector.toList = (padBytes n c buf).flatten := by
  have hp : (padBytes n c buf).map (fun p => (blockOf p).toList) = padBytes n c buf :=
    (List.map_congr_left fun p hp => toList_blockOf (padBytes_lengths hn hb c p hp)).trans (List.map_id' _)
  rw [pad, List.flatMap_map, List.flatMap_def, hp]

/-! ### The digest (R131, R132) -/

/-- R132: the digest latched is no part of the computation. -/
theorem Engine.latch_sameComputation (e : Engine) : e.latch.SameComputation e := ⟨rfl, rfl, rfl, rfl⟩

theorem bytesOfWords_length (v : Words8) : (bytesOfWords v).length = 32 := by
  simp [bytesOfWords, List.length_flatMap]

/-! ### Hexadecimal (R135) -/

theorem hexOfBytes_cons (b : Byte) (m : List Byte) : hexOfBytes (b :: m) =
    hexDigit (b.extractLsb' 4 4).toFin :: hexDigit (b.extractLsb' 0 4).toFin :: hexOfBytes m := rfl

theorem hexOfBytes_length (m : List Byte) : (hexOfBytes m).length = 2 * m.length := by
  simp [hexOfBytes, hexOfByte, List.length_flatMap, Nat.mul_comm]

/-- R135: the `k`-th byte is the two characters from place `2 * k` on, the high nibble's first. -/
theorem hexOfBytes_getElem? {m : List Byte} {k : Nat} {b : Byte} (h : m[k]? = some b) :
    (hexOfBytes m)[2 * k]? = some (hexDigit (b.extractLsb' 4 4).toFin) ∧
      (hexOfBytes m)[2 * k + 1]? = some (hexDigit (b.extractLsb' 0 4).toFin) := by
  induction m generalizing k with
  | nil => simp at h
  | cons a m ih =>
    rw [hexOfBytes_cons]
    cases k with
    | zero =>
      obtain rfl : a = b := by simpa using h
      exact ⟨rfl, rfl⟩
    | succ k => exact ih (by simpa using h)

/-- R135: the codes of `0` to `9` and of `a` to `f`. -/
theorem hexDigit_toNat (n : Fin 16) : (hexDigit n).toNat = if n.val < 10 then 48 + n.val else 87 + n.val := by
  revert n; decide

theorem highNibble_val (b : Byte) : (b.extractLsb' 4 4).toFin.val = b.toNat / 16 := by
  have := b.isLt
  simp [Nat.shiftRight_eq_div_pow]; omega

theorem lowNibble_val (b : Byte) : (b.extractLsb' 0 4).toFin.val = b.toNat % 16 := by
  simp

end Sys2Proof.Machine
end

section
/-! The statements of the family 43_finalize. -/

namespace Sys2Proof.Proofs

open Sys2Proof.Machine

/-- Settles O27: the padded blocks in sequence are one padded sequence, read byte by byte. -/
theorem paddedBlocksHaveTheirBytes : Obligations.PaddedBlocksHaveTheirBytes := by
  intro n c buf hn hb
  obtain ⟨z, hz⟩ := padBytes_flatten n c buf
  have htake : (buf.take n).length = n := List.length_take_of_le hb
  have hlen : (padBytes n c buf).flatten.length = n + z + 9 := by
    simp [hz, htake]; omega
  refine ⟨padBytes_length n c buf, padBytes_lengths hn hb c, (pad_flatMap_toList hn hb c).symm,
    fun j hj => ?_, fun buf' h => by rw [pad, pad, padBytes_congr h]⟩
  have hpending (hjn : j < n) : (buf.take n).getD j 0 = buf.getD j 0 := by simp [List.getD_eq_getElem?_getD, hjn]
  rw [hlen] at hj ⊢
  rw [hz, padded_getElem? _ _ _ (by rwa [htake]), htake]
  exact congrArg some (ite_congr rfl hpending fun _ => rfl)

/-- Settles O28: the digest latched is `finalize` of the live state, a compression of each padded block in turn. -/
theorem finalLatchesTheDigest : Obligations.FinalLatchesTheDigest := by
  refine ⟨by decide, fun s => ⟨s.engine.messageDigest, exec_eq .final s, fun h => ?_, fun h => ?_⟩⟩
  · obtain ⟨p, hp⟩ := pad_of_le h s.engine.count s.engine.live
    exact ⟨p, hp, by rw [Engine.messageDigest, finalize, hp]; rfl⟩
  · obtain ⟨p, q, hp⟩ := pad_of_ge h s.engine.count s.engine.live
    exact ⟨p, q, hp, by rw [Engine.messageDigest, finalize, hp]; rfl⟩

/-- Settles O54: `hostDigest_eq` for the computation, and the two characters of each byte with their codes. -/
theorem hexDigestRendersEachDigestByte : Obligations.HexDigestRendersEachDigestByte := by
  refine ⟨fun s => ⟨_, by rw [hostHexDigest, hostDigest_eq]; rfl, s.engine.latch_sameComputation⟩,
    fun v => by rw [hexOfBytes_length, bytesOfWords_length], fun m k hk => ?_⟩
  have hb := List.getElem?_eq_getElem hk
  obtain ⟨hhi, hlo⟩ := hexOfBytes_getElem? hb
  refine ⟨m[k], _, _, hb, hhi, hlo, ?_, ?_⟩
  · rw [hexDigit_toNat, highNibble_val]
  · rw [hexDigit_toNat, lowNibble_val]

/-- Settles O29: `exec_eq` for `RDIGEST`, which reads `DIGEST` alone and leaves the engine. -/
theorem rdigestReadsTheLatchedWord : Obligations.RdigestReadsTheLatchedWord :=
  fun i => ⟨by revert i; decide, exec_eq (.rdigest i)⟩

end Sys2Proof.Proofs
end

section
/-! SUPPORT. The midstate interface: what a staging write leaves in `MSIN`, `MSIN_CNT` and `MSIN_MASK`, what the snapshot holds
before the first export, and how `EXPORT` and `LOAD` are answered. -/

namespace Sys2Proof.Machine

/-! ### Staging (R30 to R32) -/

/-- R32: a staging write sets its own bit of the mask and keeps the others. -/
theorem maskWith_getLsbD (m : BitVec 10) (k : Nat) {j : Nat} (hj : j < 10) :
    (maskWith m k).getLsbD j = (decide (j = k) || m.getLsbD j) := by
  have hbit : (1#10 <<< k).getLsbD j = decide (j = k) := by
    rw [← BitVec.twoPow_eq, BitVec.getLsbD_twoPow, Bool.and_eq_decide]
    exact decide_eq_decide.2 (by simp only [decide_eq_true_eq]; omega)
  rw [maskWith, BitVec.getLsbD_or, hbit, Bool.or_comm]

/-- R145: the staged word stands at its index, and the other words are those before. -/
theorem Engine.stageWord_msin_getElem (e : Engine) (i j : Fin 8) (w : Word) :
    (e.stageWord i w).msin[j] = if j = i then w else e.msin[j] := by
  simp [Vector.getElem_set, Fin.ext_iff, eq_comm]

@[simp] theorem lowHalf_withLowHalf (v : Count) (w : Word) : lowHalf (withLowHalf v w) = w := lowHalf_joinHalves _ w

@[simp] theorem highHalf_withLowHalf (v : Count) (w : Word) : highHalf (withLowHalf v w) = highHalf v :=
  highHalf_joinHalves _ w

@[simp] theorem highHalf_withHighHalf (v : Count) (w : Word) : highHalf (withHighHalf v w) = w := highHalf_joinHalves w _

@[simp] theorem lowHalf_withHighHalf (v : Count) (w : Word) : lowHalf (withHighHalf v w) = lowHalf v :=
  lowHalf_joinHalves w _

/-! ### The snapshot before the first export (R142) -/

theorem Engine.Inv.msout_getElem {e : Engine} (h : e.Inv) (hv : e.msoutValid = false) (i : Fin 8) : e.msout[i] = 0 := by
  simp [(h.msout_zero hv).1]

/-! ### `EXPORT` and `LOAD`, accepted and rejected -/

theorem responseOf_export {e : Engine} (h : e.bufLen = 0) : responseOf .exportMs e = { resp := .okay, rdata := 0 } := by
  rw [responseOf, if_pos (e.atBoundary_iff.2 h)]

theorem responseOf_export_of_ne {e : Engine} (h : e.bufLen ≠ 0) :
    responseOf .exportMs e = { resp := .stateBoundary, rdata := 0 } := by
  rw [responseOf, if_neg (mt e.atBoundary_iff.1 h)]

/-- R148: a complete and aligned midstate seeds the engine. -/
theorem exec_load {s : State} (h : s.engine.msinMask = 0x3FF ∧ s.engine.msinCnt.toNat % 64 = 0) :
    exec .load s = accept s.engine.seed s := by
  have hload := s.engine.loadable_iff.2 h
  rw [exec_eq, engineAfter, responseOf, if_pos hload, if_pos hload, accept_eq]

/-- R148: any other is rejected, whichever of the two checks fails. -/
theorem exec_load_of_not {s : State} (h : ¬ (s.engine.msinMask = 0x3FF ∧ s.engine.msinCnt.toNat % 64 = 0)) :
    exec .load s = reject .invalidState s := by
  have hload := mt s.engine.loadable_iff.1 h
  rw [exec_eq, engineAfter, responseOf, if_neg hload, if_neg hload, reject_eq]

end Sys2Proof.Machine
end

section
/-! The statements of the family 44_midstate. -/

namespace Sys2Proof.Proofs

open Sys2Proof.Machine

/-- Settles O30, at a block boundary and off one. -/
theorem exportSnapshotsOnlyAtABoundary : Obligations.ExportSnapshotsOnlyAtABoundary := by
  refine ⟨by decide, fun s => ⟨fun h => ?_, fun h => ?_⟩⟩
  · rw [exec_eq, engineAfter_export h, responseOf_export h]; rfl
  · rw [exec_eq, engineAfter_export_of_ne h, responseOf_export_of_ne h]; rfl

/-- Settles O31: `exec_eq` for the three reads, each of which leaves the engine; the invariant gives the zeros before the
first export. -/
theorem snapshotReadsReturnTheSnapshot : Obligations.SnapshotReadsReturnTheSnapshot := by
  refine ⟨by decide, by decide, by decide, fun s => ⟨fun i => exec_eq (.rmsout i) s, exec_eq .rmsocntl s,
    exec_eq .rmsocnth s, fun hinv hv i => ?_⟩⟩
  rw [← hinv.msout_getElem hv i]
  exact exec_eq (.rmsout i) s

/-- Settles O32: `exec_eq` for `MSCLR`, after which the engine is `Engine.clearMask`. -/
theorem msclrClearsOnlyTheMask : Obligations.MsclrClearsOnlyTheMask :=
  ⟨by decide, exec_eq .msclr⟩

/-- Settles O33: `exec_eq` for `WMSIN`, after which the word is staged at its index and its bit of the mask is set. -/
theorem wmsinStagesOneWord : Obligations.WmsinStagesOneWord := by
  have hword : ∀ i : Fin 8, (writeOf (.msin i) 0).toT = 0x18000000000 + (BitVec.ofNat 41 i.val <<< 34) := by decide
  exact fun i w => ⟨by rw [encode, writeOf_toT, hword], fun s => ⟨_, _, exec_eq (.wmsin i w) s,
    fun j => s.engine.stageWord_msin_getElem i j w, fun _ hj => maskWith_getLsbD _ _ hj⟩⟩

/-- Settles O34: `exec_eq` for the two writes; each replaces one half of the count and sets its bit of the mask. -/
theorem countStagingWritesOneHalf : Obligations.CountStagingWritesOneHalf := by
  have hlow : (writeOf .msinCntLo 0).toT = 0x1A000000000 := by decide
  have hhigh : (writeOf .msinCntHi 0).toT = 0x1A400000000 := by decide
  intro w s
  exact ⟨_, _, _, _, by rw [encode, writeOf_toT, hlow], by rw [encode, writeOf_toT, hhigh],
    exec_eq (.wmscntl w) s, exec_eq (.wmscnth w) s,
    lowHalf_withLowHalf _ w, highHalf_withLowHalf _ w, highHalf_withHighHalf _ w, lowHalf_withHighHalf _ w,
    fun _ hj => ⟨maskWith_getLsbD _ _ hj, maskWith_getLsbD _ _ hj⟩⟩

/-- Settles O35, by the conjunction of the two checks: `LOAD` succeeds when both hold, and otherwise is rejected. -/
theorem loadSeedsOnlyACompleteMidstate : Obligations.LoadSeedsOnlyACompleteMidstate :=
  ⟨by decide, fun _ => ⟨fun hmask hcnt => exec_load ⟨hmask, hcnt⟩,
    fun h => exec_load_of_not (not_and_or.2 h)⟩⟩

end Sys2Proof.Proofs
end

section
/-! SUPPORT. How a transaction is answered, said once: the engine and the response together, each response code of an
instruction with its causes, and the block that arriving bytes complete. -/

namespace Sys2Proof

/-- R121, R122: no instruction carries more than four message bytes. -/
theorem Instr.absorbed_length_le (i : Instr) : i.absorbed.length ≤ 4 := by
  cases i <;> simp [Instr.absorbed]

end Sys2Proof

namespace Sys2Proof.Machine

/-! ### One transaction (R10, R71) -/

/-- Everything a transaction can do to the engine, and the response it adds: those of its instruction, or `ILLEGAL` and an
engine left as it was. -/
theorem serve_cases {x : Transaction} {s t : State} {r : Response} (h : serve x s = .next t)
    (hr : t.responses = s.responses ++ [r]) :
    (∃ i, decode x = .instr i ∧ t.engine = engineAfter i s.engine ∧ r = responseOf i s.engine) ∨
    (∃ why, decode x = .illegal why ∧ t.engine = s.engine ∧ r = { resp := .illegal, rdata := 0 }) := by
  cases hd : decode x with
  | instr i =>
    rw [serve_of_instr hd, exec_eq] at h
    cases h
    exact .inl ⟨i, rfl, rfl, (List.singleton_inj.1 (List.append_cancel_left hr)).symm⟩
  | illegal why =>
    rw [serve_of_illegal hd] at h
    cases h
    exact .inr ⟨why, rfl, rfl, (List.singleton_inj.1 (List.append_cancel_left hr)).symm⟩

/-! ### The response codes of an instruction (R161 to R164) -/

theorem responseOf_load_resp (e : Engine) : (responseOf .load e).resp =
    if e.msinMask ≠ 0x3FF ∨ e.msinCnt.extractLsb' 0 6 ≠ 0 then .invalidState else .okay := by
  simp only [responseOf, Engine.staged, Engine.stagedCountAligned, Bool.and_eq_true, decide_eq_true_eq, ne_eq,
    ← not_and_or, ite_not]

theorem responseOf_export_resp (e : Engine) : (responseOf .exportMs e).resp =
    if e.bufLen ≠ 0 then .stateBoundary else .okay := by
  simp only [responseOf, Engine.atBoundary_iff, ne_eq, ite_not]

/-- R164: every instruction but `LOAD` and `EXPORT` is accepted in every state. -/
theorem responseOf_okay {i : Instr} (hload : i ≠ .load) (hexport : i ≠ .exportMs) (e : Engine) :
    (responseOf i e).resp = .okay := by
  cases i
  case load => exact absurd rfl hload
  case exportMs => exact absurd rfl hexport
  all_goals rfl

/-- R161 to R164: the response code of an instruction is given by `LOAD`'s test, by `EXPORT`'s test, or is `OKAY`. -/
theorem responseOf_resp (i : Instr) (e : Engine) : (responseOf i e).resp =
    if i = .load ∧ (e.msinMask ≠ 0x3FF ∨ e.msinCnt.extractLsb' 0 6 ≠ 0) then .invalidState
    else if i = .exportMs ∧ e.bufLen ≠ 0 then .stateBoundary else .okay := by
  by_cases hload : i = .load
  · simp [hload, responseOf_load_resp]
  by_cases hexport : i = .exportMs
  · simp [hexport, responseOf_export_resp]
  · simp [hload, hexport, responseOf_okay]

theorem responseOf_invalidState_iff (i : Instr) (e : Engine) : (responseOf i e).resp = .invalidState ↔
    i = .load ∧ (e.msinMask ≠ 0x3FF ∨ e.msinCnt.extractLsb' 0 6 ≠ 0) := by
  rw [responseOf_resp]
  split_ifs with hload hexport
  · exact iff_of_true rfl hload
  · exact iff_of_false (by decide) hload
  · exact iff_of_false (by decide) hload

theorem responseOf_stateBoundary_iff (i : Instr) (e : Engine) : (responseOf i e).resp = .stateBoundary ↔
    i = .exportMs ∧ e.bufLen ≠ 0 := by
  rw [responseOf_resp]
  split_ifs with hload hexport
  · exact iff_of_false (by decide) (by simp [hload.1])
  · exact iff_of_true rfl hexport
  · exact iff_of_false (by decide) hexport

/-- R163: `ILLEGAL` is the answer to no instruction. -/
theorem responseOf_ne_illegal (i : Instr) (e : Engine) : (responseOf i e).resp ≠ .illegal := by
  rw [responseOf_resp]
  split_ifs <;> decide

/-! ### Bytes that complete a block (R120, R122) -/

/-- `Engine.absorbAll_long` with the pending and the arriving bytes as one sequence: its first 64 bytes are the block, and
the rest are pending. -/
theorem Engine.absorbAll_completes {e : Engine} {m : List Byte} (h : 64 ≤ e.bufLen.toNat + m.length)
    (hm : m.length ≤ 4) : (e.absorbAll m).h = compress e.h (blockOf (e.live ++ m)) ∧
      (e.absorbAll m).live = (e.live ++ m).drop 64 := by
  have hlt := e.bufLen.isLt
  have hlive : e.live.length ≤ 64 := by rw [Engine.live_length]; omega
  obtain ⟨hh, hl, -⟩ := Engine.absorbAll_long h hm
  constructor
  · rw [hh]
    exact congrArg _ (blockOf_congr (by simp [List.take_append]))
  · rw [hl, List.drop_append, List.drop_eq_nil_of_le hlive, Engine.live_length, List.nil_append]

end Sys2Proof.Machine
end

section
/-! The statements of the family 60_exceptions. -/

namespace Sys2Proof.Proofs

open Sys2Proof.Machine

/-- Settles O13: a word that is no instruction, or an instruction; one with message bytes absorbs them, and they complete
a block or do not. -/
theorem rejectedTransactionChangesNothing : Obligations.RejectedTransactionChangesNothing := by
  intro x s t r h hr
  obtain ⟨i, hd, ht, rfl⟩ | ⟨why, hd, ht, rfl⟩ := serve_cases h hr
  · refine ⟨fun hne => ?_, fun j hj habs => ?_⟩
    · obtain ⟨he, hdata⟩ := responseOf_not_okay hne
      exact ⟨ht.trans he, hdata⟩
    · obtain rfl : i = j := Decoded.instr.inj (hd.symm.trans hj)
      rw [ht, engineAfter_put habs]
      exact ⟨responseOf_put habs _, Engine.absorbAll_count _ _, fun hshort => (Engine.absorbAll_short hshort).2.1,
        fun hlong => Engine.absorbAll_completes hlong i.absorbed_length_le⟩
  · exact ⟨fun _ => ⟨ht, rfl⟩, fun j hj => by simp [hd] at hj⟩

/-- Settles O14: a word that is no instruction is answered `ILLEGAL`, and an instruction by its own test. -/
theorem responseCodesHaveExactlyTheirCauses : Obligations.ResponseCodesHaveExactlyTheirCauses := by
  intro x s t r h hr
  obtain ⟨i, hd, ht, rfl⟩ | ⟨why, hd, ht, rfl⟩ := serve_cases h hr
  · simp only [hd, Decoded.instr.injEq]
    refine ⟨responseOf_invalidState_iff i _, responseOf_stateBoundary_iff i _, ?_, ?_, ?_⟩
    · simp [responseOf_ne_illegal]
    · rintro _ rfl hload hexport
      exact responseOf_okay hload hexport _
    · exact fun hne => ht.trans (responseOf_not_okay hne).1
  · simp [hd, ht]

end Sys2Proof.Proofs
end

section
/-! SUPPORT. The opcode map's rows in pairs, the response word, and one transaction and one step as one outcome. -/

namespace Sys2Proof

/-- R74: rows that agree on the bits both of them compare are one row. -/
theorem opcodeTable_pairs : ∀ r ∈ opcodeTable, ∀ r' ∈ opcodeTable, r.bits &&& r'.mask = r'.bits &&& r.mask → r = r' := by
  decide

/-- R74: a word that two rows match makes them agree on the bits both of them compare. -/
theorem OpcodeRow.bits_and_mask_of_hits {r r' : OpcodeRow} {w : TWord} (h : r.hit w = true) (h' : r'.hit w = true) :
    r.bits &&& r'.mask = r'.bits &&& r.mask := by
  rw [OpcodeRow.hit, decide_eq_true_eq] at h h'
  rw [← h, ← h', BitVec.and_assoc, BitVec.and_assoc, BitVec.and_comm r.mask]

/-- R70: the word's direction bit is the one of the instruction it decodes to. -/
theorem we_of_decode {x : Transaction} {i : Instr} (h : decode x = .instr i) : x.we = (encode i).we := by
  rw [encode_of_decode h, Transaction.canonical_we]

/-- R71: `rdata` in bits 31:0 of the response word. -/
theorem Response.toP_rdata (r : Response) : r.toP.extractLsb' 0 32 = r.rdata := BitVec.extractLsb'_append_eq_right

/-- R71: the code in bits 33:32 of the response word. -/
theorem Response.toP_code (r : Response) : r.toP.extractLsb' 32 2 = r.resp.code := BitVec.extractLsb'_append_eq_left

/-- Log entry 4: a 41-bit word is the transaction with its bits. -/
theorem transactionOfBits_toNat (w : TWord) : transactionOfBits 48 w.toNat = some (Transaction.ofT w) := by
  have hw := w.isLt
  have hmod : w.toNat % 2 ^ 48 = w.toNat := Nat.mod_eq_of_lt (by omega)
  rw [transactionOfBits, hmod, if_pos hw, BitVec.ofNat_toNat, BitVec.setWidth_eq]

end Sys2Proof

namespace Sys2Proof.Machine

/-- R71: "`rdata` is 0 for every write". -/
theorem responseOf_rdata_of_write {i : Instr} (h : (encode i).we = true) (e : Engine) : (responseOf i e).rdata = 0 := by
  cases i
  case rstatus | rcntl | rcnth | rdigest | rmsout | rmsocntl | rmsocnth => cases h
  all_goals rfl

/-- R62: no read has a side effect. -/
theorem engineAfter_of_read {i : Instr} (h : (encode i).we = false) (e : Engine) : engineAfter i e = e := by
  cases i
  case rstatus | rcntl | rcnth | rdigest | rmsout | rmsocntl | rmsocnth => rfl
  all_goals cases h

/-- R10, R71: the one outcome of a transaction, with the instruction it decodes to or none. -/
theorem serve_eq (x : Transaction) (s : State) :
    (∃ i, decode x = .instr i ∧
      serve x s = .next (State.answer { s with engine := engineAfter i s.engine } (responseOf i s.engine))) ∨
    (∃ why, decode x = .illegal why ∧ serve x s = .next (s.answer { resp := .illegal, rdata := 0 })) := by
  cases hd : decode x with
  | instr i => exact .inl ⟨i, rfl, (serve_of_instr hd s).trans (exec_eq i s)⟩
  | illegal why => exact .inr ⟨why, rfl, serve_of_illegal hd s⟩

/-- R10, R165: every transaction has an outcome with one response more, and an engine left as it was unless that is
`OKAY`. -/
theorem exists_serve_next (x : Transaction) (s : State) : ∃ t r, serve x s = .next t ∧ t.pending = s.pending ∧
    t.responses = s.responses ++ [r] ∧ (r.resp = .okay ∨ t.engine = s.engine) := by
  obtain ⟨i, -, h⟩ | ⟨why, -, h⟩ := serve_eq x s
  · refine ⟨_, _, h, rfl, rfl, ?_⟩
    by_cases hr : (responseOf i s.engine).resp = .okay
    · exact .inl hr
    · exact .inr (responseOf_not_okay hr).1
  · exact ⟨_, _, h, rfl, rfl, .inr rfl⟩

end Sys2Proof.Machine
end

section
/-! The statements about the opcode map, the port and the step. -/

namespace Sys2Proof.Proofs

open Sys2Proof.Machine

/-- Settles O3: `tableLookup_toT`, by the three fields of the word. -/
theorem decodeAgreesWithTheOpcodeMap : Obligations.DecodeAgreesWithTheOpcodeMap := fun w => by
  rw [← tableLookup_toT, Transaction.toT_ofT]

/-- Settles O4: two rows that match one word agree on the bits both compare, and no two rows do. -/
theorem opcodeRowsAreDisjoint : Obligations.OpcodeRowsAreDisjoint :=
  ⟨rfl, fun r r' _ hr hr' h h' => opcodeTable_pairs r hr r' hr' (OpcodeRow.bits_and_mask_of_hits h h')⟩

/-- Settles O12: the outcome of `serve_eq`, with the value of a read alone in `rdata`. -/
theorem everyTransactionReturnsOneResponse : Obligations.EveryTransactionReturnsOneResponse := by
  intro x s
  obtain ⟨i, hd, h⟩ | ⟨why, -, h⟩ := serve_eq x s
  · refine ⟨_, _, h, rfl, rfl, ?_, Response.toP_rdata _, ?_⟩
    · rintro (hw | hr)
      · exact responseOf_rdata_of_write (by rwa [← we_of_decode hd]) _
      · exact (responseOf_not_okay hr).2
    · rw [Response.toP_code]
      cases (responseOf i s.engine).resp <;> rfl
  · exact ⟨_, _, h, rfl, rfl, fun _ => rfl, Response.toP_rdata _, by rw [Response.toP_code]; rfl⟩

/-- Settles O1: the decoder evaluated on each word. -/
theorem decodesTheWordsOfTheEncodingVectors : Obligations.DecodesTheWordsOfTheEncodingVectors := by
  unfold Obligations.DecodesTheWordsOfTheEncodingVectors
  decide

/-- Settles O7: the oldest event is the one `step` handles. -/
theorem stepRunsTheDecodedTransaction : Obligations.StepRunsTheDecodedTransaction := by
  refine fun s rest => ⟨fun x hp => ⟨fun i hd => ?_, fun why hd => ?_⟩, step_of_reset⟩
  · rw [step_of_transaction hp, serve_of_instr hd]
  · rw [step_of_transaction hp, serve_of_illegal hd]; rfl

/-- Settles O9: the idle step. -/
theorem stepWithoutEventsHoldsTheState : Obligations.StepWithoutEventsHoldsTheState := fun _ => step_of_nil

/-- Settles O10: the placed word is the oldest event. -/
theorem placedWordIsTheNextTransaction : Obligations.PlacedWordIsTheNextTransaction := by
  intro s w
  constructor
  · rw [step_of_transaction (t := Transaction.ofT w) (rest := s.pending)
      (by rw [State.withFetchWord, eventsOfBits, transactionOfBits_toNat]; rfl)]
    rfl
  · rw [decodeTableWord, transactionOfBits_toNat]

/-- Settles O11, by the oldest event: none, the reset event, or a transaction. -/
theorem everyStepCompletes : Obligations.EveryStepCompletes := by
  intro s
  rcases hp : s.pending with _ | ⟨x | _, rest⟩
  · exact ⟨s, step_of_nil hp, hp, by simp⟩
  · obtain ⟨t, r, h, hpend, hresp, hok⟩ := exists_serve_next x { s with pending := rest }
    exact ⟨t, (step_of_transaction hp).trans h, hpend, fun _ _ _ => ⟨r, hresp, hok⟩⟩
  · exact ⟨_, step_of_reset hp, rfl, by simp⟩

end Sys2Proof.Proofs
end

section
/-! SUPPORT. What absorbed bytes leave in `BUF` and in the registers of the interface, and what an instruction does to the
computation, to `H`, to `BUF` and to the staging registers. -/

namespace Sys2Proof

/-- The instructions that start or import a message are `INIT` and `LOAD`. -/
theorem Instr.continues_cases (i : Instr) : i = .init ∨ i = .load ∨ i.continues = true := by
  cases i <;> simp [Instr.continues]

/-- R32: `MSCLR` and a successful `LOAD`, the instructions that clear the mask. -/
def Instr.ClearsMask (i : Instr) (e : Machine.Engine) : Prop :=
  i = .msclr ∨ (i = .load ∧ e.msinMask = 0x3FF ∧ e.msinCnt.toNat % 64 = 0)

/-- R32: the index of the mask bit that an instruction sets. -/
def Instr.stagingBit : Instr → Option Nat
  | .wmsin i _ => some i
  | .wmscntl _ => some 8
  | .wmscnth _ => some 9
  | _ => none

theorem Instr.stagingBit_eq_some {i : Instr} {k : Nat} (h : i.stagingBit = some k) :
    (∃ n w, i = .wmsin n w ∧ k = n.val) ∨ (∃ w, i = .wmscntl w ∧ k = 8) ∨ ∃ w, i = .wmscnth w ∧ k = 9 := by
  cases i <;> cases h
  case wmsin n w => exact .inl ⟨n, w, rfl, rfl⟩
  case wmscntl w => exact .inr (.inl ⟨w, rfl, rfl⟩)
  case wmscnth w => exact .inr (.inr ⟨w, rfl, rfl⟩)

end Sys2Proof

namespace Sys2Proof.Machine

/-- What can change the engine in a step: the reset event, or the instruction of the oldest transaction. -/
theorem step_engine_eq_or {s t : State} (h : step s = .next t) : t.engine = s.engine ∨
    ∃ ev rest, s.pending = ev :: rest ∧ ((ev = .reset ∧ t.engine = Engine.reset) ∨ ∃ i, ev.isInstr i ∧ t.engine = engineAfter i s.engine) := by
  obtain ⟨-, rfl⟩ | ⟨rest, hp, rfl⟩ | ⟨x, rest, i, hp, hd, rfl⟩ | ⟨x, rest, why, hp, hd, rfl⟩ := step_cases h
  · exact .inl rfl
  · exact .inr ⟨_, _, hp, .inl ⟨rfl, rfl⟩⟩
  · exact .inr ⟨_, _, hp, .inr ⟨i, ⟨x, rfl, hd⟩, rfl⟩⟩
  · exact .inl rfl

/-! ### Sequences of bytes -/

@[simp] theorem Engine.absorbAll_msin (e : Engine) (m : List Byte) : (e.absorbAll m).msin = e.msin :=
  Engine.absorbAll_keeps Engine.absorb_msin e m

@[simp] theorem Engine.absorbAll_msinCnt (e : Engine) (m : List Byte) : (e.absorbAll m).msinCnt = e.msinCnt :=
  Engine.absorbAll_keeps Engine.absorb_msinCnt e m

@[simp] theorem Engine.absorbAll_msinMask (e : Engine) (m : List Byte) : (e.absorbAll m).msinMask = e.msinMask :=
  Engine.absorbAll_keeps Engine.absorb_msinMask e m

/-- R120, R122: what absorbed bytes leave as it was. -/
theorem Engine.absorbAll_frame (e : Engine) {m : List Byte} (h : m ≠ []) : e.absorbAll m =
    { e with buf := (e.absorbAll m).buf, count := (e.absorbAll m).count, h := (e.absorbAll m).h,
             bufLen := (e.absorbAll m).bufLen, digestValid := false } := by
  rw [← e.absorbAll_digest m, ← e.absorbAll_digestValid h, ← e.absorbAll_msout m, ← e.absorbAll_msoutCnt m,
    ← e.absorbAll_msoutValid m, ← e.absorbAll_msin m, ← e.absorbAll_msinCnt m, ← e.absorbAll_msinMask m]

/-- R22, R120: the bytes of a sequence stand in `BUF` from `BUF[BUFLEN]` on, modulo 64. -/
theorem Engine.absorbAll_buf_getElem (e : Engine) {m : List Byte} (hm : m.length ≤ 64) (j : Fin 64) :
    (e.absorbAll m).buf[j] = m.getD ((j.val + 64 - e.bufLen.toNat) % 64) e.buf[j] := by
  have hlt := e.bufLen.isLt
  have hj := j.isLt
  induction m generalizing e with
  | nil => simp
  | cons b m ih =>
    rw [List.length_cons] at hm
    rw [Engine.absorbAll_cons, ih (e.absorb b) (by omega) (e.absorb b).bufLen.isLt, Engine.absorb_bufLen_toNat,
      Engine.absorb_buf_getElem]
    split
    next hjb =>
      rw [show (j.val + 64 - e.bufLen.toNat) % 64 = 0 by omega, List.getD_cons_zero,
        List.getD_eq_default _ _ (by omega)]
    next hjb =>
      obtain ⟨k, hk, hk'⟩ : ∃ k, (j.val + 64 - e.bufLen.toNat) % 64 = k + 1 ∧
          (j.val + 64 - (e.bufLen.toNat + 1) % 64) % 64 = k :=
        ⟨(j.val + 64 - e.bufLen.toNat) % 64 - 1, by omega, by omega⟩
      rw [hk, hk', List.getD_cons_succ]

/-! ### What an instruction does to the computation -/

/-- R22: an instruction that neither starts nor imports a message and has no message bytes leaves the computation. -/
theorem engineAfter_sameComputation_of_nil {i : Instr} (hc : i.continues = true) (h : i.absorbed = []) (e : Engine) :
    (engineAfter i e).SameComputation e := by
  have hi := engineAfter_sameComputation hc e
  rwa [h] at hi

/-- R148: an accepted `LOAD` seeds the engine, and a rejected one leaves it. -/
theorem engineAfter_load (e : Engine) : engineAfter .load e =
    if e.msinMask = 0x3FF ∧ e.msinCnt.toNat % 64 = 0 then e.seed else e := by
  simp only [engineAfter, Engine.loadable_iff]

/-- R20: the writers of `H` among the instructions. -/
theorem engineAfter_h_cases (i : Instr) (e : Engine) : (engineAfter i e).h = e.h ∨
    (i = .init ∧ (engineAfter i e).h = iv) ∨ (i = .load ∧ (engineAfter i e).h = e.msin) ∨
    (64 ≤ e.bufLen.toNat + i.absorbed.length ∧
      (engineAfter i e).h = compress e.h (blockOf (e.live ++ i.absorbed))) := by
  obtain rfl | rfl | hc := i.continues_cases
  · exact .inr (.inl ⟨rfl, rfl⟩)
  · obtain h | h := engineAfter_load_cases e
    · exact .inr (.inr (.inl ⟨rfl, by rw [h, Engine.seed_h]⟩))
    · exact .inl (by rw [h])
  · rw [(engineAfter_sameComputation hc e).h_eq]
    by_cases hlen : e.bufLen.toNat + i.absorbed.length < 64
    · exact .inl (Engine.absorbAll_short hlen).1
    · have h64 := Nat.le_of_not_lt hlen
      exact .inr (.inr (.inr ⟨h64, (Engine.absorbAll_completes h64 i.absorbed_length_le).1⟩))

/-- R22: an instruction with no message bytes writes no byte of `BUF`. -/
theorem engineAfter_buf_of_nil {i : Instr} (h : i.absorbed = []) (e : Engine) : (engineAfter i e).buf = e.buf := by
  cases i
  case putb | putw => simp [Instr.absorbed, be32] at h
  case load | exportMs => simp only [engineAfter]; split <;> simp
  all_goals simp [engineAfter]

/-- R22: a byte of `BUF` after an instruction: the one before, or the `k`-th byte absorbed. -/
theorem engineAfter_buf_cases (i : Instr) (e : Engine) (j : Fin 64) : (engineAfter i e).buf[j] = e.buf[j] ∨
    ∃ k, i.absorbed[k]? = some (engineAfter i e).buf[j] ∧ j.val = (e.bufLen.toNat + k) % 64 := by
  by_cases habs : i.absorbed = []
  · exact .inl (by rw [engineAfter_buf_of_nil habs])
  · have hlt := e.bufLen.isLt
    have hlen := i.absorbed_length_le
    rw [engineAfter_put habs, Engine.absorbAll_buf_getElem e (by omega)]
    by_cases hk : (j.val + 64 - e.bufLen.toNat) % 64 < i.absorbed.length
    · exact .inr ⟨_, by rw [List.getD_eq_getElem _ _ hk, List.getElem?_eq_getElem hk], by omega⟩
    · exact .inl (List.getD_eq_default _ _ (Nat.le_of_not_lt hk))

/-! ### What an instruction does to the staging registers (R30 to R32) -/

theorem engineAfter_keeps_msin {i : Instr} (h : ∀ k w, i ≠ .wmsin k w) (e : Engine) :
    (engineAfter i e).msin = e.msin := by
  cases i
  case wmsin k w => exact absurd rfl (h k w)
  case load | exportMs => simp only [engineAfter]; split <;> simp
  all_goals simp [engineAfter]

theorem engineAfter_keeps_msinCnt {i : Instr} (h : ∀ w, i ≠ .wmscntl w ∧ i ≠ .wmscnth w) (e : Engine) :
    (engineAfter i e).msinCnt = e.msinCnt := by
  cases i
  case wmscntl w => exact absurd rfl (h w).1
  case wmscnth w => exact absurd rfl (h w).2
  case load | exportMs => simp only [engineAfter]; split <;> simp
  all_goals simp [engineAfter]

theorem engineAfter_msinMask_of_clears {i : Instr} {e : Engine} (h : i.ClearsMask e) :
    (engineAfter i e).msinMask = 0 := by
  obtain rfl | ⟨rfl, hload⟩ := h
  · rfl
  · rw [engineAfter_load, if_pos hload, Engine.seed_msinMask]

/-- R32: every other instruction keeps the bits of the mask but for its own. -/
theorem engineAfter_msinMask_getLsbD {i : Instr} {e : Engine} (h : ¬ i.ClearsMask e) {k : Nat} (hk : k < 10) :
    (engineAfter i e).msinMask.getLsbD k = (decide (i.stagingBit = some k) || e.msinMask.getLsbD k) := by
  cases i
  case msclr => exact absurd (.inl rfl) h
  case load => rw [engineAfter_load, if_neg fun hload => h (.inr ⟨rfl, hload⟩)]; simp [Instr.stagingBit]
  case exportMs => simp only [engineAfter]; split <;> simp [Instr.stagingBit]
  case wmsin | wmscntl | wmscnth => simp [engineAfter, Instr.stagingBit, maskWith_getLsbD _ _ hk, eq_comm]
  all_goals simp [engineAfter, Instr.stagingBit]

end Sys2Proof.Machine
end

section
/-! The statements about `PUTW` and about the writers of `H`, `BUF` and the staging registers. -/

namespace Sys2Proof.Proofs

open Sys2Proof.Machine

/-- Settles O22: `PUTW` absorbs the four bytes of its word, which complete a block from `BUFLEN` 60 on. -/
theorem putwCrossesAtMostOneBoundary : Obligations.PutwCrossesAtMostOneBoundary := by
  intro w s
  have hlt := s.engine.bufLen.isLt
  refine ⟨s.engine.absorbAll (be32 w), exec_eq (.putw w) s, ?_, Engine.absorbAll_buf_getElem _ (by simp), fun h => ?_,
    fun h => ?_⟩
  · conv_lhs => rw [Engine.absorbAll_frame s.engine (m := be32 w) (by simp [be32]), Engine.absorbAll_count]
    rfl
  · obtain ⟨hh, hlive, hlen⟩ := Engine.absorbAll_short (e := s.engine) (m := be32 w) (by simp; omega)
    exact ⟨hh, hlen, hlive⟩
  · obtain ⟨hh, hlive, hlen⟩ := Engine.absorbAll_long (e := s.engine) (m := be32 w) (by simp; omega) (by simp)
    exact ⟨hh, by rw [hlen, be32_length]; omega, hlive⟩

/-- Settles O36, by what changed the engine: reset, or one of the instructions that write `H`. -/
theorem accumulatorHasOnlyItsWriters : Obligations.AccumulatorHasOnlyItsWriters := by
  intro s t h
  obtain he | ⟨ev, rest, hp, ⟨rfl, he⟩ | ⟨i, hev, he⟩⟩ := step_engine_eq_or h <;> rw [he]
  · exact .inl rfl
  · exact .inr ⟨_, rest, hp, .inl ⟨rfl, rfl⟩⟩
  · obtain hh | ⟨rfl, hh⟩ | ⟨rfl, hh⟩ | ⟨hlen, hh⟩ := engineAfter_h_cases i s.engine
    · exact .inl hh
    · exact .inr ⟨ev, rest, hp, .inr (.inl ⟨hev, hh⟩)⟩
    · exact .inr ⟨ev, rest, hp, .inr (.inr (.inl ⟨hev, hh⟩))⟩
    · exact .inr ⟨ev, rest, hp, .inr (.inr (.inr ⟨i, hev, hlen, hh⟩))⟩

/-- Settles O38, by what changed the engine: reset, or an instruction that absorbs the byte. -/
theorem bufferIsWrittenOnlyByAbsorbedBytes : Obligations.BufferIsWrittenOnlyByAbsorbedBytes := by
  intro s t j h
  obtain he | ⟨ev, rest, hp, ⟨rfl, he⟩ | ⟨i, hev, he⟩⟩ := step_engine_eq_or h <;> rw [he]
  · exact .inl rfl
  · exact .inr ⟨_, rest, hp, .inl ⟨rfl, by simp [Engine.reset]⟩⟩
  · obtain hj | ⟨k, hk, hj⟩ := engineAfter_buf_cases i s.engine j
    · exact .inl hj
    · exact .inr ⟨ev, rest, hp, .inr ⟨i, k, hev, hk, hj⟩⟩

/-- Settles O41, by the kind of the event served; an instruction clears the mask or keeps its bits but for its own. -/
theorem stagingHasOnlyItsWriters : Obligations.StagingHasOnlyItsWriters := by
  intro s t ev rest hp h
  obtain ⟨rfl, ht⟩ | ⟨i, hev, hi, ht⟩ | ⟨hev, hi, ht⟩ := step_engine_cases hp h
  · simp [ht, Engine.reset]
  · simp only [ht, hi, hev, false_or]
    change _ ∧ _ ∧ _ ∧ (i.ClearsMask _ → _) ∧ (∀ k < 10, _ → _ → i.ClearsMask _) ∧ _
    refine ⟨fun hk _ => engineAfter_keeps_msin hk _, fun hk _ => engineAfter_keeps_msinCnt hk _, False.elim,
      engineAfter_msinMask_of_clears, fun k hk hset hclr => ?_, fun k hk hclr hset => ?_⟩
    · by_contra hn
      rw [engineAfter_msinMask_getLsbD hn hk, hset, Bool.or_true] at hclr
      cases hclr
    · by_cases hc : i.ClearsMask s.engine
      · simp [engineAfter_msinMask_of_clears hc] at hset
      · rw [engineAfter_msinMask_getLsbD hc hk, hclr, Bool.or_false, decide_eq_true_eq] at hset
        exact Instr.stagingBit_eq_some hset
  · simp [ht, hi, hev]

end Sys2Proof.Proofs
end

section
/-! SUPPORT. Repeated instructions, and what an instruction keeps: the engine invariant, the history of the message, equal
computations, and engines that differ in dead bytes of `BUF` alone. -/

namespace Sys2Proof.Machine

/-! ### Repeated instructions (R62) -/

/-- R62: an instruction but `LOAD` that absorbs no byte, repeated at once, changes nothing more. -/
theorem engineAfter_idem {i : Instr} (h : i.absorbed = []) (hload : i ≠ .load) (e : Engine) :
    engineAfter i (engineAfter i e) = engineAfter i e := by
  cases i
  case load => exact absurd rfl hload
  case putb | putw => simp [Instr.absorbed, be32] at h
  case exportMs =>
    by_cases hb : e.bufLen = 0
    · rw [engineAfter_export hb, engineAfter_export (e := e.snapshot) hb]; rfl
    · rw [engineAfter_export_of_ne hb, engineAfter_export_of_ne hb]
  case wmsin i w => simp [engineAfter, Engine.stageWord, maskWith, BitVec.or_assoc]
  case wmscntl w => simp [engineAfter, Engine.stageCountLow, maskWith, BitVec.or_assoc, withLowHalf, highHalf_joinHalves]
  case wmscnth w => simp [engineAfter, Engine.stageCountHigh, maskWith, BitVec.or_assoc, withHighHalf, lowHalf_joinHalves]
  all_goals rfl

/-- R121, R122: bytes absorbed move the counter. -/
theorem engineAfter_count_ne {i : Instr} (h : i.absorbed ≠ []) (e : Engine) : (engineAfter i e).count ≠ e.count := by
  have hpos := List.length_pos_iff.2 h
  have hle := i.absorbed_length_le
  rw [engineAfter_put h, Engine.absorbAll_count]
  intro heq
  have hcount := congrArg BitVec.toNat heq
  have hlt := e.count.isLt
  rw [BitVec.toNat_add, BitVec.toNat_ofNat] at hcount
  omega

/-- R62, R148: a `LOAD` cannot follow another, since a successful one clears the mask. -/
theorem not_loadable_after_load (e : Engine) : ¬ ((engineAfter .load e).msinMask = 0x3FF ∧
    (engineAfter .load e).msinCnt.toNat % 64 = 0) := by
  rw [engineAfter_load]
  split
  next h => simp
  next h => exact h

/-! ### Engines with nothing pending -/

theorem Engine.live_eq_nil {e : Engine} (h : e.bufLen = 0) : e.live = [] :=
  List.eq_nil_of_length_eq_zero (by rw [Engine.live_length, h]; rfl)

/-- R125 at a block boundary: the accumulator and the count are the computation. -/
theorem Engine.SameComputation.of_boundary {e f : Engine} (hh : e.h = f.h) (hcount : e.count = f.count)
    (he : e.bufLen = 0) (hf : f.bufLen = 0) : e.SameComputation f :=
  ⟨hh, hcount, he.trans hf.symm, (Engine.live_eq_nil he).trans (Engine.live_eq_nil hf).symm⟩

/-! ### The engine invariant -/

theorem Engine.reset_inv : Engine.reset.Inv := ⟨rfl, by simp [Engine.reset], rfl, fun _ => ⟨rfl, rfl⟩⟩

/-- R23, R24 (a): `BUFLEN` as the counter's low six bits. -/
theorem Engine.bufLen_eq_iff (e : Engine) : e.bufLen = e.count.extractLsb' 0 6 ↔ e.bufLen.toNat = e.count.toNat % 64 := by
  simp [← BitVec.toNat_inj]

/-- R24 (a), R124: an instruction moves `BUFLEN` with the counter. -/
theorem engineAfter_keeps_bufLen_eq {e : Engine} (h : e.bufLen = e.count.extractLsb' 0 6) (i : Instr) :
    (engineAfter i e).bufLen = (engineAfter i e).count.extractLsb' 0 6 := by
  obtain rfl | rfl | hc := i.continues_cases
  · rfl
  · rw [engineAfter_load]
    split
    next hload =>
      rw [Engine.bufLen_eq_iff]
      simp [hload.2]
    next => exact h
  · rw [Engine.bufLen_eq_iff] at h ⊢
    rw [engineAfter_bufLen_toNat hc, engineAfter_count hc, h, BitVec.toNat_add, BitVec.toNat_ofNat]
    omega

/-- R26: an instruction keeps the digest that `DIGEST_VALID` vouches for. -/
theorem engineAfter_keeps_digest_eq {e : Engine} (h : e.digestValid = true → e.digest = e.messageDigest) (i : Instr)
    (hv : (engineAfter i e).digestValid = true) : (engineAfter i e).digest = (engineAfter i e).messageDigest := by
  by_cases habs : i.absorbed = []
  · obtain rfl | rfl | hc := i.continues_cases
    · cases hv
    · rw [engineAfter_load] at hv ⊢
      split at hv
      next => cases hv
      next hload => rw [if_neg hload]; exact h hv
    · rw [(engineAfter_sameComputation_of_nil hc habs e).messageDigest_eq]
      by_cases hfinal : i = .final
      · subst hfinal; rfl
      · rw [engineAfter_keeps_digest hfinal]
        refine h ?_
        rwa [engineAfter_keeps_digestValid hfinal (by rintro rfl; cases hc) (by rintro rfl; cases hc) habs] at hv
  · rw [engineAfter_digestValid_of_put habs] at hv
    cases hv

theorem Engine.Inv.engineAfter {e : Engine} (h : e.Inv) (i : Instr) : (engineAfter i e).Inv := by
  have hlen := engineAfter_keeps_bufLen_eq h.bufLen_eq i
  have hdigest := engineAfter_keeps_digest_eq h.digest_eq i
  by_cases hx : i = .exportMs ∧ e.bufLen = 0
  · obtain ⟨rfl, hb⟩ := hx
    refine ⟨hlen, hdigest, ?_, ?_⟩ <;> rw [engineAfter_export hb]
    · rw [Engine.snapshot_msoutCnt, ← h.bufLen_eq, hb]
    · simp
  · obtain ⟨hmsout, hcnt, hvalid⟩ := engineAfter_keeps_snapshot hx
    exact ⟨hlen, hdigest, hcnt ▸ h.msoutCnt_aligned, hmsout ▸ hcnt ▸ hvalid ▸ h.msout_zero⟩

/-! ### Histories (R24) -/

/-- R24 (c), R140: an engine with nothing pending, at a count that is a multiple of 64, holds the empty message from its
own accumulator and count. -/
theorem Engine.holds_nil {e : Engine} (hb : e.bufLen = 0) (hc : e.count.extractLsb' 0 6 = 0) :
    e.Holds { acc := e.h, count := e.count, bytes := [] } :=
  ⟨hc, by simp, by simp [hb], by rw [Engine.live_eq_nil hb]; simp [remainder], (hashBlocks_short (by simp) _).symm⟩

theorem Engine.reset_holds : Engine.reset.Holds .fresh := Engine.holds_nil rfl rfl

theorem Engine.fresh_holds (e : Engine) : e.fresh.Holds .fresh := Engine.holds_nil rfl rfl

/-- The history of an instruction that neither starts nor imports a message. -/
theorem History.after_of_continues {i : Instr} (h : i.continues = true) (g : History) (e : Engine) :
    g.after e i = { g with bytes := g.bytes ++ i.absorbed } := by
  cases i
  case init | load => cases h
  all_goals rfl

theorem Engine.Holds.engineAfter {e : Engine} {g : History} (h : e.Holds g) (i : Instr) :
    (engineAfter i e).Holds (g.after e i) := by
  obtain rfl | rfl | hc := i.continues_cases
  · exact e.fresh_holds
  · simp only [Machine.engineAfter, History.after]
    split
    next hload =>
      refine Engine.holds_nil (e := e.seed) rfl ?_
      simpa [Engine.stagedCountAligned] using (Bool.and_eq_true_iff.1 hload).2
    next => exact h
  · rw [History.after_of_continues hc]
    exact (h.absorbAll i.absorbed).congr (engineAfter_sameComputation hc e).symm

/-! ### Equal computations (R125) -/

/-- The engine after instructions in order. -/
def engineAfterAll (p : List Instr) (e : Engine) : Engine := p.foldl (fun e i => engineAfter i e) e

theorem engineAfterAll_cons (i : Instr) (p : List Instr) (e : Engine) :
    engineAfterAll (i :: p) e = engineAfterAll p (engineAfter i e) := rfl

theorem engineAfterAll_append (p q : List Instr) (e : Engine) :
    engineAfterAll (p ++ q) e = engineAfterAll q (engineAfterAll p e) := List.foldl_append

/-- R125: instructions that neither start nor import a message do to the computation what their bytes do, in order. -/
theorem engineAfterAll_sameComputation {p : List Instr} (hp : ∀ i ∈ p, i.continues = true) (e : Engine) :
    (engineAfterAll p e).SameComputation (e.absorbAll (p.flatMap Instr.absorbed)) := by
  induction p generalizing e with
  | nil => exact .refl e
  | cons i p ih =>
    rw [engineAfterAll_cons, List.flatMap_cons, Engine.absorbAll_append]
    exact (ih (fun j hj => hp j (List.mem_cons_of_mem i hj)) _).trans
      ((engineAfter_sameComputation (hp i List.mem_cons_self) e).absorbAll _)

/-! ### Engines that differ in dead bytes of `BUF` alone (R22) -/

/-- The engine with other bytes in `BUF`. -/
def Engine.withBuf (e : Engine) (b : Block) : Engine := { e with buf := b }

/-- The bytes of `BUF` are all that can differ. -/
theorem Engine.Indistinguishable.eq_withBuf {e f : Engine} (h : e.Indistinguishable f) : f = e.withBuf f.buf := by
  obtain ⟨⟨hh, hcount, hlen, -⟩, hdigest, hvalid, hmsout, hcnt, hmvalid, hmsin, hmcnt, hmask⟩ := h
  rw [Engine.withBuf, hh, hcount, hlen, hdigest, hvalid, hmsout, hcnt, hmvalid, hmsin, hmcnt, hmask]

/-- R22: no response depends on `BUF`. -/
theorem responseOf_withBuf (i : Instr) (e : Engine) (b : Block) : responseOf i (e.withBuf b) = responseOf i e := by
  cases i <;> rfl

theorem Engine.Indistinguishable.responseOf_eq {e f : Engine} (h : e.Indistinguishable f) (i : Instr) :
    responseOf i e = responseOf i f := by
  rw [h.eq_withBuf]
  exact (responseOf_withBuf i e f.buf).symm

/-- R22, R148: what an instruction makes of the computation does not depend on the dead bytes. -/
theorem Engine.Indistinguishable.sameComputation_engineAfter {e f : Engine} (h : e.Indistinguishable f) (i : Instr) :
    (engineAfter i e).SameComputation (engineAfter i f) := by
  obtain rfl | rfl | hc := i.continues_cases
  · exact .of_boundary rfl rfl rfl rfl
  · rw [engineAfter_load, engineAfter_load, ← h.msinMask_eq, ← h.msinCnt_eq]
    split
    · exact .of_boundary h.msin_eq h.msinCnt_eq rfl rfl
    · exact h.same
  · exact (engineAfter_sameComputation hc e).trans
      ((h.same.absorbAll i.absorbed).trans (engineAfter_sameComputation hc f).symm)

/-- R22: of the instructions with no message bytes only `FINAL` reads `BUF`, and none writes it. -/
theorem engineAfter_withBuf {i : Instr} (habs : i.absorbed = []) (hfinal : i ≠ .final) (e : Engine) (b : Block) :
    engineAfter i (e.withBuf b) = (engineAfter i e).withBuf b := by
  cases i
  case final => exact absurd rfl hfinal
  case putb | putw => simp [Instr.absorbed, be32] at habs
  case load => exact (apply_ite (Engine.withBuf · b) ((e.staged && e.stagedCountAligned) = true) e.seed e).symm
  case exportMs => exact (apply_ite (Engine.withBuf · b) (e.atBoundary = true) e.snapshot e).symm
  all_goals rfl

theorem Engine.Indistinguishable.engineAfter {e f : Engine} (h : e.Indistinguishable f) (i : Instr) :
    (engineAfter i e).Indistinguishable (engineAfter i f) := by
  have hsame := h.sameComputation_engineAfter i
  by_cases habs : i.absorbed = []
  · by_cases hfinal : i = .final
    · subst hfinal
      exact ⟨hsame, h.same.messageDigest_eq, rfl, h.msout_eq, h.msoutCnt_eq, h.msoutValid_eq, h.msin_eq, h.msinCnt_eq,
        h.msinMask_eq⟩
    · rw [h.eq_withBuf, engineAfter_withBuf habs hfinal e f.buf] at hsame ⊢
      exact ⟨hsame, rfl, rfl, rfl, rfl, rfl, rfl, rfl, rfl⟩
  · rw [engineAfter_put habs, engineAfter_put habs] at hsame ⊢
    refine ⟨hsame, ?_, ?_, ?_, ?_, ?_, ?_, ?_, ?_⟩
    case refine_2 => rw [Engine.absorbAll_digestValid e habs, Engine.absorbAll_digestValid f habs]
    all_goals simp [h.digest_eq, h.msout_eq, h.msoutCnt_eq, h.msoutValid_eq, h.msin_eq, h.msinCnt_eq, h.msinMask_eq]

end Sys2Proof.Machine
end

section
/-! The statements about repeated transactions, the invariants and equal computations. -/

namespace Sys2Proof.Proofs

open Sys2Proof.Machine

/-- Settles O43: each event's outcome meets the invariant, an instruction's by `Engine.Inv.engineAfter`. -/
theorem stepKeepsTheEngineInvariant : Obligations.StepKeepsTheEngineInvariant := by
  intro s t hinv h
  obtain ⟨-, rfl⟩ | ⟨_, -, rfl⟩ | ⟨_, _, i, -, -, rfl⟩ | ⟨_, _, _, -, -, rfl⟩ := step_cases h
  · exact hinv
  · exact Engine.reset_inv
  · exact hinv.engineAfter i
  · exact hinv

/-- Settles O45: each event's outcome holds the history the event makes, an instruction's by
`Engine.Holds.engineAfter`. -/
theorem stepKeepsTheMessageHistory : Obligations.StepKeepsTheMessageHistory := by
  intro s t g hg h
  obtain ⟨hp, rfl⟩ | ⟨_, hp, rfl⟩ | ⟨_, _, i, hp, hd, rfl⟩ | ⟨_, _, _, hp, hd, rfl⟩ := step_cases h <;> rw [hp]
  · exact hg
  · exact Engine.reset_holds
  · simp only [History.afterEvent, hd]
    exact hg.engineAfter i
  · simp only [History.afterEvent, hd]
    exact hg

/-- Settles O47: both lists do to the computation what the bytes do that they absorb. -/
theorem chunkingDoesNotMatter : Obligations.ChunkingDoesNotMatter := by
  intro p q s u hp hq hbytes hsame
  obtain ⟨_, -, ht⟩ := execAll_eq p s
  obtain ⟨_, -, hv⟩ := execAll_eq q u
  refine ⟨_, _, ht, hv, (engineAfterAll_sameComputation hp _).trans ?_⟩
  rw [hbytes]
  exact (hsame.absorbAll _).trans (engineAfterAll_sameComputation hq _).symm

/-- Settles O48: indistinguishable engines give the same response, and an instruction leaves them so. -/
theorem deadBufferBytesAreNeverSeen : Obligations.DeadBufferBytesAreNeverSeen := by
  intro x s u h
  cases hd : decode x with
  | instr i =>
    rw [serve_of_instr hd, serve_of_instr hd, exec_eq, exec_eq, ← h.responseOf_eq i]
    exact ⟨_, _, _, rfl, rfl, rfl, rfl, h.engineAfter i⟩
  | illegal why =>
    rw [serve_of_illegal hd, serve_of_illegal hd]
    exact ⟨_, _, _, rfl, rfl, rfl, rfl, h⟩

/-- Settles O15, by the kind of the instruction: a read, a write that absorbs no byte, one that does, or `LOAD`. -/
theorem readsAndRepeatsHaveNoFurtherEffect : Obligations.ReadsAndRepeatsHaveNoFurtherEffect := by
  refine ⟨fun x s t hx h => ?_, fun i s t habs hload h => ?_, fun i s habs => ?_, fun s t h => ?_⟩
  · obtain ⟨i, hd, hi⟩ | ⟨why, -, hi⟩ := serve_eq x s
    all_goals
      obtain rfl := Host.Outcome.next.inj (hi.symm.trans h)
    · exact engineAfter_of_read (by rwa [← we_of_decode hd]) _
    · rfl
  · rw [exec_next h]
    exact ⟨_, exec_eq i _, engineAfter_idem habs hload s.engine⟩
  · exact ⟨_, _, exec_eq i s, exec_eq i _, engineAfter_count_ne habs _, engineAfter_count_ne habs _⟩
  · rw [exec_next h]
    exact exec_load_of_not (not_loadable_after_load s.engine)

/-- Settles O42: after reset `BUFLEN` and `COUNT` are 0, no digest is latched and the snapshot is zero. -/
theorem resetMeetsTheEngineInvariant : Obligations.ResetMeetsTheEngineInvariant := Engine.reset_inv

/-- Settles O44: reset and `INIT` both leave `IV`, count 0 and nothing pending. -/
theorem resetAndInitHoldTheEmptyMessage : Obligations.ResetAndInitHoldTheEmptyMessage :=
  ⟨Engine.reset_holds, fun s => ⟨_, exec_eq .init s, s.engine.fresh_holds, .of_boundary rfl rfl rfl rfl⟩⟩

end Sys2Proof.Proofs
end

section
/-! SUPPORT. The digest of a whole message: its padded bytes are its whole blocks and then the engine's padded blocks. -/

namespace Sys2Proof.Machine

/-- A sequence that is cut into pieces of one block each: its blocks are the pieces. -/
theorem hashBlocks_flatten {ps : List (List Byte)} (h : ∀ p ∈ ps, p.length = 64) (acc : Words8) :
    hashBlocks acc ps.flatten = (ps.map blockOf).foldl compress acc := by
  induction ps generalizing acc with
  | nil => rfl
  | cons p ps ih =>
    have hp := h p List.mem_cons_self
    have hone := hashBlocks_one (m := []) hp (by simp) acc
    rw [List.append_nil] at hone
    rw [List.flatten_cons, hashBlocks_append (by omega), hone, ih fun q hq => h q (List.mem_cons_of_mem p hq)]
    rfl

/-- R131: finalization hashes the padded blocks' bytes. -/
theorem finalize_eq_hashBlocks {n : Nat} {buf : List Byte} (hn : n ≤ 63) (hb : n ≤ buf.length) (acc : Words8)
    (c : Count) : finalize acc n c buf = hashBlocks acc (padBytes n c buf).flatten :=
  (hashBlocks_flatten (padBytes_lengths hn hb c) acc).symm

/-- R130: the padded blocks of a pending buffer are its bytes, `0x80`, zeros up to 56 modulo 64, and the bit length. -/
theorem padBytes_flatten_eq {n : Nat} (hn : n ≤ 63) (c : Count) (buf : List Byte) : (padBytes n c buf).flatten =
    buf.take n ++ ([0x80] ++ zeroBytes (paddingZeros n) ++ be64 (bitLength c)) := by
  unfold padBytes
  split
  next h =>
    rw [show paddingZeros n = 55 - n by rw [paddingZeros]; omega]
    simp
  next h =>
    rw [show paddingZeros n = 63 - n + 56 by rw [paddingZeros]; omega]
    simp [zeroBytes, List.replicate_add]

/-- R53, R130: the length field of a message, from the engine's counter. -/
theorem bitLength_ofNat (n : Nat) : bitLength (BitVec.ofNat 64 n) = BitVec.ofNat 64 (8 * n) := by
  rw [bitLength, Nat.mul_comm, BitVec.ofNat_mul]; rfl

/-- R130: a padded message is its whole blocks and then the padded blocks of what remains. -/
theorem paddedMessage_eq (m : List Byte) : paddedMessage m = m.take (64 * (m.length / 64)) ++
    (padBytes (m.length % 64) (BitVec.ofNat 64 m.length) (remainder m)).flatten := by
  have hzeros : paddingZeros (m.length % 64) = paddingZeros m.length := by rw [paddingZeros, Nat.mod_mod, paddingZeros]
  rw [padBytes_flatten_eq (by omega), bitLength_ofNat, hzeros, List.take_of_length_le (remainder_length m).le,
    ← List.append_assoc, take_append_remainder, paddedMessage]
  simp

/-- R137: the digest an engine computes for the message it holds since it was fresh. -/
theorem Engine.Holds.messageDigest_eq {e : Engine} {m : List Byte} (h : e.Holds { History.fresh with bytes := m }) :
    e.messageDigest = sha256 m := by
  have hcount : e.count = BitVec.ofNat 64 m.length := h.count_eq.trans (BitVec.zero_add _)
  have hlen : e.bufLen.toNat = m.length % 64 := h.bufLen_eq
  have hh : e.h = hashBlocks iv m := h.h_eq
  have hlive : e.live = remainder m := h.live_eq
  rw [Engine.messageDigest, finalize_eq_hashBlocks (by omega) (by simp), hcount, hlen, hlive, hh, sha256,
    paddedMessage_eq, hashBlocks_append (by simp; omega), hashBlocks_whole]

/-- R92, R137: a fresh engine that has absorbed a message. -/
theorem Engine.messageDigest_fresh_absorbAll (e : Engine) (m : List Byte) :
    (e.fresh.absorbAll m).messageDigest = sha256 m :=
  (e.fresh_holds.absorbAll m).messageDigest_eq

/-! ### Runs of the host's operations (R80, R170) -/

theorem State.allOkaySince.trans {s t u : State} (h : s.allOkaySince t) (k : t.allOkaySince u) : s.allOkaySince u := by
  obtain ⟨rs, hr, hok⟩ := h
  obtain ⟨qs, hq, kok⟩ := k
  exact ⟨rs ++ qs, by rw [hq, hr, List.append_assoc], fun r hmem => (List.mem_append.1 hmem).elim (hok r) (kok r)⟩

theorem exists_hostNew (s : State) : ∃ t, hostNew s = some t ∧ t.engine = s.engine.fresh ∧ s.allOkaySince t :=
  ⟨_, hostNew_eq s, rfl, _, rfl, by simp⟩

theorem exists_hostUpdate (m : List Byte) (s : State) :
    ∃ t, hostUpdate m s = some t ∧ t.engine = s.engine.absorbAll m ∧ s.allOkaySince t :=
  ⟨_, hostUpdate_eq m s, rfl, _, rfl, fun _ hr => congrArg Response.resp (List.eq_of_mem_replicate hr)⟩

theorem exists_hostDigest (s : State) : ∃ t, hostDigest s = some (t, bytesOfWords s.engine.messageDigest) ∧
    t.engine = s.engine.latch ∧ s.allOkaySince t :=
  ⟨_, hostDigest_eq s, rfl, _, rfl, by simp⟩

end Sys2Proof.Machine
end

section
/-! The statements about the digest of a message. -/

namespace Sys2Proof.Proofs

open Sys2Proof.Machine

/-- Settles O46: `exec_eq` for `FINAL`, and the digest of the message held; the length field wraps in both alike. -/
theorem finalLatchesTheSha256OfTheMessage : Obligations.FinalLatchesTheSha256OfTheMessage :=
  fun s _ h _ => ⟨_, exec_eq .final s, h.messageDigest_eq, rfl⟩

/-- Settles O49: what `new`, `update` and `digest` leave and give; latching a digest is no part of the computation. -/
theorem hostDigestIsTheSha256OfTheMessage : Obligations.HostDigestIsTheSha256OfTheMessage := by
  intro s m _
  obtain ⟨s1, hnew, he1, ok1⟩ := exists_hostNew s
  obtain ⟨s2, hupd, he2, ok2⟩ := exists_hostUpdate m s1
  obtain ⟨s3, hdig, he3, ok3⟩ := exists_hostDigest s2
  obtain ⟨s4, hagain, he4, ok4⟩ := exists_hostDigest s3
  have hsame3 : s3.engine.SameComputation s2.engine := he3 ▸ s2.engine.latch_sameComputation
  have hsame4 : s4.engine.SameComputation s3.engine := he4 ▸ s3.engine.latch_sameComputation
  have hsha : s2.engine.messageDigest = sha256 m := by rw [he2, he1, Engine.messageDigest_fresh_absorbAll]
  rw [hsame3.messageDigest_eq] at hagain
  exact ⟨s1, s2, s3, s4, _, hnew, hupd, hdig, hagain, by rw [hsha], bytesOfWords_length _, hsame3,
    hsame4.trans hsame3, ((ok1.trans ok2).trans ok3).trans ok4⟩

end Sys2Proof.Proofs
end

section
/-! SUPPORT. The midstate as the host carries it: a blob's words, the reads of the snapshot, and what an import stages. -/

namespace Sys2Proof.Machine

/-! ### Blobs (R57) -/

theorem wordsOfBlob_length : (b : List Byte) → (wordsOfBlob b).length = b.length / 4
  | [] | [_] | [_, _] | [_, _, _] => by simp [wordsOfBlob]
  | _ :: _ :: _ :: _ :: rest => by
    rw [wordsOfBlob, List.length_cons, wordsOfBlob_length rest]
    simp only [List.length_cons]
    omega

/-- A blob of whole words is the bytes of its words. -/
theorem bytesOfWordList_wordsOfBlob : {b : List Byte} → b.length % 4 = 0 → bytesOfWordList (wordsOfBlob b) = b
  | [], _ => rfl
  | [_], h | [_, _], h | [_, _, _], h => by simp at h
  | b0 :: b1 :: b2 :: b3 :: rest, h => by
    have hrest := bytesOfWordList_wordsOfBlob (b := rest) (by simp only [List.length_cons] at h; omega)
    rw [bytesOfWordList] at hrest ⊢
    rw [wordsOfBlob, List.flatMap_cons, be32_wordBE, hrest]
    rfl

theorem wordsOfBlob_bytesOfWordList (ws : List Word) : wordsOfBlob (bytesOfWordList ws) = ws := by
  induction ws with
  | nil => rfl
  | cons w ws ih =>
    change wordBE _ _ _ _ :: wordsOfBlob (bytesOfWordList ws) = _
    rw [wordBE_be32, ih]

/-! ### The reads of the counters and of the snapshot (R36, R80) -/

/-- R62: reads complete, leave the engine, and give the values of the instructions in order. -/
theorem exists_issueReads {is : List Instr} (h : ∀ i ∈ is, (encode i).we = false) (s : State) : ∃ t,
    issueReads is s = some (t, is.map fun i => (responseOf i s.engine).rdata) ∧ t.engine = s.engine :=
  ⟨_, issueReads_eq fun i hi => engineAfter_of_read (h i hi) _, rfl⟩

theorem exists_hostGetCount (s : State) : ∃ t, hostGetCount s = some (t, s.engine.count) ∧ t.engine = s.engine := by
  obtain ⟨t, hreads, ht⟩ := exists_issueReads (is := [.rcntl, .rcnth]) (by decide) s
  refine ⟨t, ?_, ht⟩
  simp [hostGetCount, hreads, responseOf, joinHalves_halves]

theorem exists_hostExport {s : State} (h : s.engine.bufLen = 0) : ∃ t,
    hostExport s = some (t, .ok { blob := bytesOfWords s.engine.h, count := s.engine.count }) ∧
      t.engine = s.engine.snapshot := by
  have hexport := issue_eq .exportMs s
  rw [engineAfter_export h, responseOf_export h] at hexport
  have hvalues : (msoutReads ++ [Instr.rmsocntl, .rmsocnth]).map (fun i => (responseOf i s.engine.snapshot).rdata) =
      s.engine.h.toList ++ [lowHalf s.engine.count, highHalf s.engine.count] := by
    rw [List.map_append, msoutReads, List.map_map]
    exact congrArg (· ++ _) (map_getElem_finRange _)
  obtain ⟨t, hreads, ht⟩ := exists_issueReads (is := msoutReads ++ [.rmsocntl, .rmsocnth]) (by decide)
    (State.answer { s with engine := s.engine.snapshot } { resp := .okay, rdata := 0 })
  rw [State.answer_engine, hvalues] at hreads
  refine ⟨t, ?_, ht⟩
  rw [hostExport, hexport]
  dsimp only
  rw [if_pos rfl, hreads]
  simp [joinHalves_halves, bytesOfWordList_toList]

theorem exists_hostExport_of_ne {s : State} (h : s.engine.bufLen ≠ 0) :
    ∃ t, hostExport s = some (t, .error .stateBoundary) ∧ t.engine = s.engine :=
  ⟨_, by rw [hostExport, issue_eq, responseOf_export_of_ne h]; rfl, by rw [engineAfter_export_of_ne h]; rfl⟩

/-! ### Staging a blob (R80, R145) -/

/-- Words staged at their indices, in order. -/
def Engine.stageWords (e : Engine) (ps : List (Fin 8 × Word)) : Engine := ps.foldl (fun e p => e.stageWord p.1 p.2) e

theorem Engine.stageWords_cons (e : Engine) (p : Fin 8 × Word) (ps : List (Fin 8 × Word)) :
    e.stageWords (p :: ps) = (e.stageWord p.1 p.2).stageWords ps := rfl

theorem engineAfterAll_stagingWrites (ws : List Word) (e : Engine) :
    engineAfterAll (stagingWrites ws) e = e.stageWords ((List.finRange 8).zip ws) := by
  rw [engineAfterAll, stagingWrites, List.foldl_map]; rfl

/-- R32: the mask has the bits it had and those of the staged indices. -/
theorem Engine.stageWords_msinMask (e : Engine) (ps : List (Fin 8 × Word)) {k : Nat} (hk : k < 10) :
    (e.stageWords ps).msinMask.getLsbD k = true ↔ (∃ p ∈ ps, p.1.val = k) ∨ e.msinMask.getLsbD k = true := by
  induction ps generalizing e with
  | nil => simp [Engine.stageWords]
  | cons p ps ih =>
    rw [Engine.stageWords_cons, ih, Engine.stageWord_msinMask, maskWith_getLsbD _ _ hk, Bool.or_eq_true,
      decide_eq_true_eq, List.exists_mem_cons_iff, eq_comm (a := k)]
    exact or_left_comm.trans or_assoc.symm

theorem Engine.stageWords_msin_of_not_mem (e : Engine) {ps : List (Fin 8 × Word)} {j : Fin 8}
    (h : j ∉ ps.map Prod.fst) : (e.stageWords ps).msin[j] = e.msin[j] := by
  induction ps generalizing e with
  | nil => rfl
  | cons p ps ih =>
    obtain ⟨hj, hps⟩ := not_or.1 (mt List.mem_cons.2 h)
    rw [Engine.stageWords_cons, ih _ hps, Engine.stageWord_msin_getElem, if_neg hj]

/-- R30: words staged at different indices all stand in `MSIN`. -/
theorem Engine.stageWords_msin_of_mem (e : Engine) {ps : List (Fin 8 × Word)} (hps : (ps.map Prod.fst).Nodup)
    {p : Fin 8 × Word} (hp : p ∈ ps) : (e.stageWords ps).msin[p.1] = p.2 := by
  induction ps generalizing e with
  | nil => cases hp
  | cons q ps ih =>
    obtain ⟨hq, hnodup⟩ := List.nodup_cons.1 hps
    obtain rfl | hp := List.mem_cons.1 hp
    · rw [Engine.stageWords_cons, Engine.stageWords_msin_of_not_mem _ hq, Engine.stageWord_msin_getElem, if_pos rfl]
    · exact ih _ hnodup hp

/-- R80: the words of a blob are staged at the indices from 0 on. -/
theorem exists_mem_zip_finRange (ws : List Word) (k : Nat) :
    (∃ p ∈ (List.finRange 8).zip ws, p.1.val = k) ↔ k < 8 ∧ k < ws.length := by
  constructor
  · rintro ⟨p, hp, rfl⟩
    obtain ⟨j, hj, rfl⟩ := List.mem_iff_getElem.1 hp
    simpa using hj
  · rintro ⟨h8, hk⟩
    exact ⟨_, List.getElem_mem (n := k) (by simp [h8, hk]), by simp⟩

theorem Engine.stageWords_msin_toList (e : Engine) {ws : List Word} (h : ws.length = 8) :
    (e.stageWords ((List.finRange 8).zip ws)).msin.toList = ws := by
  have hnodup : (((List.finRange 8).zip ws).map Prod.fst).Nodup := by
    rw [List.map_fst_zip (by simp [h])]
    exact List.nodup_finRange 8
  refine List.ext_getElem (by simp [h]) fun j hj hj' => ?_
  have hmem : (⟨j, h ▸ hj'⟩, ws[j]) ∈ (List.finRange 8).zip ws :=
    List.mem_iff_getElem.2 ⟨j, by simpa [h] using hj', by simp⟩
  simpa using e.stageWords_msin_of_mem hnodup hmem

/-! ### An import (R80, R148) -/

/-- R80: what an import writes before its `LOAD`. -/
def importWrites (ms : Midstate) : List Instr :=
  [.msclr] ++ stagingWrites (wordsOfBlob ms.blob) ++ [.wmscntl (lowHalf ms.count), .wmscnth (highHalf ms.count)]

theorem importInstrs_eq (ms : Midstate) : importInstrs ms = importWrites ms ++ [.load] := by
  simp [importInstrs, importWrites]

/-- The engine with a midstate staged. -/
def Engine.withStaged (e : Engine) (ms : Midstate) : Engine :=
  ((e.clearMask.stageWords ((List.finRange 8).zip (wordsOfBlob ms.blob))).stageCountLow
    (lowHalf ms.count)).stageCountHigh (highHalf ms.count)

theorem engineAfterAll_importWrites (ms : Midstate) (e : Engine) :
    engineAfterAll (importWrites ms) e = e.withStaged ms := by
  rw [importWrites, engineAfterAll_append, engineAfterAll_append, engineAfterAll_stagingWrites]
  rfl

/-- R80: staging leaves the message in progress. -/
theorem Engine.withStaged_sameComputation (e : Engine) (ms : Midstate) : (e.withStaged ms).SameComputation e := by
  have hwrites : ∀ i ∈ importWrites ms, i.continues = true ∧ i.absorbed = [] := by
    intro i hi
    simp only [importWrites, stagingWrites, List.mem_append, List.mem_map, List.mem_cons, List.not_mem_nil, or_false] at hi
    obtain (rfl | ⟨p, -, rfl⟩) | rfl | rfl := hi <;> exact ⟨rfl, rfl⟩
  have h := engineAfterAll_sameComputation (fun i hi => (hwrites i hi).1) e
  rwa [engineAfterAll_importWrites, List.flatMap_eq_nil_iff.2 fun i hi => (hwrites i hi).2] at h

theorem Engine.withStaged_msinCnt (e : Engine) (ms : Midstate) : (e.withStaged ms).msinCnt = ms.count := by
  rw [Engine.withStaged, Engine.stageCountHigh_msinCnt, Engine.stageCountLow_msinCnt, withHighHalf, lowHalf_withLowHalf,
    joinHalves_halves]

theorem Engine.withStaged_msin_toList (e : Engine) {ms : Midstate} (h : (wordsOfBlob ms.blob).length = 8) :
    (e.withStaged ms).msin.toList = wordsOfBlob ms.blob :=
  e.clearMask.stageWords_msin_toList h

/-- R32, R80: the mask is complete when the blob has its eight words. -/
theorem Engine.withStaged_msinMask (e : Engine) (ms : Midstate) :
    (e.withStaged ms).msinMask = 0x3FF ↔ 8 ≤ (wordsOfBlob ms.blob).length := by
  have hbit : ∀ k < 10, (e.withStaged ms).msinMask.getLsbD k = true ↔
      k = 9 ∨ k = 8 ∨ k < 8 ∧ k < (wordsOfBlob ms.blob).length := by
    intro k hk
    rw [Engine.withStaged, Engine.stageCountHigh_msinMask, maskWith_getLsbD _ _ hk, Engine.stageCountLow_msinMask,
      maskWith_getLsbD _ _ hk, Bool.or_eq_true, Bool.or_eq_true, Engine.stageWords_msinMask _ _ hk,
      exists_mem_zip_finRange]
    simp
  constructor
  · intro h
    have h7 := (hbit 7 (by omega)).1 (by rw [h]; decide)
    omega
  · intro h
    refine BitVec.eq_of_getLsbD_eq fun k hk => ?_
    rw [(hbit k hk).2 (by omega)]
    revert k
    decide

/-- The last instruction of a list decides the last response. -/
theorem exists_execAll_concat (p : List Instr) (i : Instr) (s : State) : ∃ t, execAll (p ++ [i]) s = .next t ∧
    t.engine = engineAfter i (engineAfterAll p s.engine) ∧
      t.responses.getLast? = some (responseOf i (engineAfterAll p s.engine)) := by
  induction p generalizing s with
  | nil => exact ⟨_, execAll_cons i [] s, rfl, List.getLast?_concat⟩
  | cons j p ih =>
    obtain ⟨t, ht⟩ := ih (State.answer { s with engine := engineAfter j s.engine } (responseOf j s.engine))
    refine ⟨t, ?_⟩
    rw [List.cons_append, execAll_cons]
    exact ht

/-- R80: the host's report of an import is the response to its `LOAD`. -/
theorem exists_hostImport {ms : Midstate} (h : ms.blob.length ≤ 32) (s : State) : ∃ t,
    hostImport ms s = some (t, if (responseOf .load (s.engine.withStaged ms)).resp = .okay then .ok ()
      else .error .invalidState) ∧ t.engine = engineAfter .load (s.engine.withStaged ms) := by
  obtain ⟨t, hrun, he, hlast⟩ := exists_execAll_concat (importWrites ms) .load s
  rw [engineAfterAll_importWrites] at he hlast
  refine ⟨t, ?_, he⟩
  simp [hostImport, Nat.not_lt.2 h, importInstrs_eq, hrun, hlast]

/-- R148: a blob of 32 bytes and a count that is a multiple of 64 are accepted. -/
theorem exists_hostImport_ok {ms : Midstate} (hb : ms.blob.length = 32) (hc : ms.count.toNat % 64 = 0) (s : State) :
    ∃ t, hostImport ms s = some (t, .ok ()) ∧ t.engine.h.toList = wordsOfBlob ms.blob ∧ t.engine.count = ms.count ∧
      t.engine.bufLen = 0 := by
  have h8 : (wordsOfBlob ms.blob).length = 8 := by rw [wordsOfBlob_length, hb]
  have hload : (s.engine.withStaged ms).msinMask = 0x3FF ∧ (s.engine.withStaged ms).msinCnt.toNat % 64 = 0 :=
    ⟨(s.engine.withStaged_msinMask ms).2 h8.ge, by rwa [s.engine.withStaged_msinCnt]⟩
  obtain ⟨t, ht, he⟩ := exists_hostImport hb.le s
  rw [responseOf, if_pos ((Engine.loadable_iff _).2 hload)] at ht
  rw [engineAfter_load, if_pos hload] at he
  refine ⟨t, ht, ?_⟩
  rw [he, Engine.seed_h, Engine.seed_count, Engine.seed_bufLen]
  exact ⟨s.engine.withStaged_msin_toList h8, s.engine.withStaged_msinCnt ms, rfl⟩

/-- R80, R148: any other midstate is rejected, and the message in progress is left. -/
theorem exists_hostImport_error {ms : Midstate} (h : ms.blob.length ≠ 32 ∨ ms.count.toNat % 64 ≠ 0) (s : State) :
    ∃ t, hostImport ms s = some (t, .error .invalidState) ∧ t.engine.SameComputation s.engine ∧
      (32 < ms.blob.length → t = s) := by
  by_cases hlong : 32 < ms.blob.length
  · exact ⟨s, if_pos hlong, .refl _, fun _ => rfl⟩
  · have hload : ¬ ((s.engine.withStaged ms).msinMask = 0x3FF ∧ (s.engine.withStaged ms).msinCnt.toNat % 64 = 0) := by
      rw [s.engine.withStaged_msinMask, s.engine.withStaged_msinCnt, wordsOfBlob_length]
      omega
    obtain ⟨t, ht, he⟩ := exists_hostImport (Nat.le_of_not_lt hlong) s
    rw [responseOf, if_neg (mt (Engine.loadable_iff _).1 hload)] at ht
    rw [engineAfter_load, if_neg hload] at he
    exact ⟨t, ht, he ▸ s.engine.withStaged_sameComputation ms, fun h32 => absurd h32 hlong⟩

end Sys2Proof.Machine
end

section
/-! The statements about the source's midstate operations and its byte count. -/

namespace Sys2Proof.Proofs

open Sys2Proof.Machine

/-- Settles O50: the imported engine and the exported one stand at a boundary with one accumulator and one count, and the
rest of the message does to both the same. -/
theorem importedMidstateResumesTheMessage : Obligations.ImportedMidstateResumesTheMessage := by
  intro s u p m hp
  obtain ⟨s1, hnew, he1, -⟩ := exists_hostNew s
  obtain ⟨s2, hupd, he2, -⟩ := exists_hostUpdate p s1
  have hb : s2.engine.bufLen = 0 := by
    rw [← BitVec.toNat_inj, he2, he1, Engine.absorbAll_bufLen_toNat]
    simpa using hp
  have hcount : s2.engine.count = BitVec.ofNat 64 p.length := by
    rw [he2, he1, Engine.absorbAll_count]
    exact BitVec.zero_add _
  have hc : s2.engine.count.toNat % 64 = 0 := by rw [hcount, BitVec.toNat_ofNat]; omega
  obtain ⟨s3, hexp, -⟩ := exists_hostExport hb
  obtain ⟨u1, himp, hh, hcnt, hlen⟩ := exists_hostImport_ok
    (ms := { blob := bytesOfWords s2.engine.h, count := s2.engine.count }) (bytesOfWords_length _) hc u
  have hh' : u1.engine.h = s2.engine.h := Vector.toList_inj.1 (hh.trans (wordsOfBlob_bytesOfWordList _))
  obtain ⟨u2, hupd2, heu2, -⟩ := exists_hostUpdate m u1
  obtain ⟨u3, hdig, heu3, -⟩ := exists_hostDigest u2
  obtain ⟨s4, hall, he4, -⟩ := exists_hostUpdate (p ++ m) s1
  obtain ⟨s5, hdig', he5, -⟩ := exists_hostDigest s4
  have hsame : u2.engine.SameComputation s4.engine := by
    rw [heu2, he4, Engine.absorbAll_append, ← he2]
    exact (Engine.SameComputation.of_boundary hh' hcnt hlen hb).absorbAll m
  rw [← hsame.messageDigest_eq] at hdig'
  refine ⟨s1, s2, s3, _, u1, u2, u3, s4, s5, _, hnew, hupd, hexp, bytesOfWords_length _, hcount, himp, hupd2, hdig, hall,
    hdig', hsame, ?_⟩
  rw [heu3, he5]
  exact u2.engine.latch_sameComputation.trans (hsame.trans s4.engine.latch_sameComputation.symm)

/-- Settles O51: a complete and aligned midstate is accepted, any other rejected. -/
theorem importRejectsExactlyMalformedMidstates : Obligations.ImportRejectsExactlyMalformedMidstates := by
  intro ms s
  by_cases h : ms.blob.length = 32 ∧ ms.count.toNat % 64 = 0
  · obtain ⟨t, ht, hh, hcount, hlen⟩ := exists_hostImport_ok h.1 h.2 s
    have hblob : bytesOfWords t.engine.h = ms.blob := by
      rw [← bytesOfWordList_toList, hh, bytesOfWordList_wordsOfBlob (by omega)]
    exact ⟨t, fun _ => ⟨ht, hblob, hcount, hlen⟩, fun hbad => absurd h (not_and_or.2 hbad)⟩
  · obtain ⟨t, ht⟩ := exists_hostImport_error (not_and_or.1 h) s
    exact ⟨t, fun hgood => absurd hgood h, fun _ => ht⟩

/-- Settles O52, at a block boundary and off one. -/
theorem hostExportGivesTheMidstate : Obligations.HostExportGivesTheMidstate := by
  intro s
  by_cases h : s.engine.bufLen = 0
  · obtain ⟨t, ht, he⟩ := exists_hostExport h
    exact ⟨t, fun _ => ht, fun hne => absurd h hne, he ▸ ⟨rfl, rfl, rfl, rfl⟩⟩
  · obtain ⟨t, ht, he⟩ := exists_hostExport_of_ne h
    exact ⟨t, fun h0 => absurd h0 h, fun _ => ht, he ▸ .refl _⟩

/-- Settles O53: the halves of `COUNT` read and joined. -/
theorem hostGetCountIsTheLiveCount : Obligations.HostGetCountIsTheLiveCount := exists_hostGetCount

end Sys2Proof.Proofs
end
